-- ==== Sys2Proof/Word.lean ====
section
/-! DEFINITION. The word of the machine and the narrow fields the spec names (00_scope.md R5, R8; 10_state.md R21, R25). -/

namespace Sys2Proof

/-- A 16-bit unsigned word, the unit of storage and of arithmetic, modulo 65536 (R5, R8). -/
abbrev Word := BitVec 16

/-- A 3-bit register identifier: R0 to R7, all 8 values valid (R21, R64). -/
abbrev RegId := BitVec 3

/-- The 3 condition bits N, Z, P, and a branch mask over them (R25, R63). -/
abbrev Cond := BitVec 3

/-- The number of words of memory: a 16-bit word address (R40). -/
abbrev wordCount : Nat := 65536

end Sys2Proof
end

