-- ==== Sys2Proof/Machine/State.lean ====
section
/-! DEFINITION. The architectural state (10_state.md R20), the model's two fields for the trap dispatcher's replies
(45_trap_reserved.md R181), the state at reset, and the reasons a step stops. -/

namespace Sys2Proof.Machine

/-- One memory word at its address: the spec's addressable unit is the 16-bit word, and it has no bytes (R41, R42).
DESIGN CHOICE, log entry 1: safe. -/
abbrev Cell := Nat × Word

/-- Memory M (R29): the words that differ from what an unlisted address reads as, addresses strictly rising.
The operations and the canonical form are in Machine/Ops.lean. -/
structure Memory where
  cells : List Cell
deriving DecidableEq, Repr

/-- The status a trap dispatcher returns: Continue or Halt (R13). -/
inductive Status where
  | goOn
  | halt
deriving DecidableEq, Repr

/-- One write the dispatcher makes through the store's contract (R12, R13). -/
inductive StoreWrite where
  | reg (i : RegId) (v : Word)
  | pc (target : Word)
  | cond (f : Cond)
  | mem (addr v : Word)
deriving DecidableEq, Repr

/-- One result of TrapService for one call (R181): the writes that lead from the state handed over to S', with the status;
or no result (the service never returns, U13). -/
inductive TrapReply where
  | returns (writes : List StoreWrite) (status : Status)
  | noResult
deriving DecidableEq, Repr, Inhabited

/-- The state of the machine. `regs`, `pc`, `cond` and `mem` are the record of R20, which is all the spec's own state.
`trapReplies` and `trapDraws` are the model's: the draws of the parameter TrapService (R181) that a claim fixes, oldest
first, and the index of the next one. DESIGN CHOICE, log entry 9: safe. -/
structure State where
  regs : Vector Word 8
  pc : Word
  cond : Cond
  mem : Memory
  trapReplies : List TrapReply
  trapDraws : Nat
deriving DecidableEq, Repr

/-- The first state. The spec states no reset value at all (R31, R220): the zeros are DESIGN CHOICES, log entries 2 to 5,
unsafe: no claim about the hardware may rest on them. -/
def State.reset : State where
  regs := Vector.replicate 8 0#16
  pc := 0#16
  cond := 0#3
  mem := ⟨[]⟩
  trapReplies := []
  trapDraws := 0

/-- The record of the engine fault: fetch address, instruction word, opcode (R185, D9). -/
structure FaultInfo where
  pc : Word
  word : Word
  opcode : BitVec 4
deriving DecidableEq, Repr

/-- Why a step has no next state. The spec's outcomes Halt(S') and Fault(info, S) of R15 are terminal (R227) and are two of
the constructors, each with its state, so that nothing of an outcome is lost. -/
inductive Fault where
  /-- The outcome Fault(info, S) of a reserved opcode, S being the state before the step (R185, R186). Raised by the two
  reserved rows alone. The spec's own outcome: safe. -/
  | engineFault (info : FaultInfo) (final : State)
  /-- The outcome Halt(S'): the normal end of a run, not an error (R183). Raised by TRAP alone, when the dispatcher returns
  Halt. DESIGN CHOICE, log entry 10 (Host.Outcome has no constructor of its own for it): safe, it ends the run as R227 says. -/
  | halt (final : State)
  /-- The dispatcher gives no result: the agent is stuck (R181 c, U13). Raised by TRAP alone; `handedOver` is the state the
  service was called with. Log entry 12: safe, the spec gives no successor. -/
  | trapStuck (ir : Word) (handedOver : State)
deriving DecidableEq, Repr

/-- Why the model gives an instruction no meaning. -/
inductive Refusal where
  /-- An instruction without a meaning, by mnemonic. Raised by no arm of this model: safe. -/
  | notModelled (mnemonic : String)
deriving DecidableEq, Repr

end Sys2Proof.Machine
end

