-- ==== Sys2Proof/Config.lean ====
section
/-! DEFINITION. What the spec leaves to a parameter (00_scope.md R6). TrapService is below. InitState is the state a claim
starts from: claims are about every state. LogConfig has no effect (41_cycle.md R102) and is no part of the model, log entry
16. The opcode numbers are `opcodeMap` (Decode.lean), the COND layout is in Machine/Flags.lean. -/

namespace Sys2Proof

/-- TrapService's reply to the call number `draw`, made in state `s` with instruction word `ir`, where no reply stands in the
state (R181). It has no body, so a statement holds whatever the dispatcher does. A FREE VALUE, DESIGN CHOICE, log entry 9:
safe. -/
opaque Config.trapReply (draw : Nat) (s : Machine.State) (ir : Word) : Machine.TrapReply

end Sys2Proof
end

