-- ==== Sys2Proof/Machine/Bitfield.lean ====
section
/-! DEFINITION. The bit-field primitives of 40_bitfield.md. A primitive's precondition is a hypothesis its caller must
supply: outside it the application cannot be written, so it has no value (R84, D15). -/

namespace Sys2Proof.Bits

/-- Bit `n` of the word, 0 or 1 (R80). -/
def getBit (word : Word) (n : Nat) (_h : n ≤ 15 := by decide) : Word :=
  (word >>> n) &&& 1#16

/-- The `width`-bit field beginning at bit `start`, right-justified (R81). -/
def getBits (word : Word) (start width : Nat) (_h : 1 ≤ width ∧ start + width ≤ 16 := by decide) : Word :=
  (word >>> start) &&& ((1#16 <<< width) - 1#16)

/-- The word with bit `n` forced to 1 (R82). -/
def setBit (word : Word) (n : Nat) (_h : n ≤ 15 := by decide) : Word :=
  word ||| (1#16 <<< n)

/-- The word with bit `n` forced to 0 (R83). -/
def clearBit (word : Word) (n : Nat) (_h : n ≤ 15 := by decide) : Word :=
  word &&& ~~~(1#16 <<< n)

/-- The low `bitCount` bits as two's complement, extended to 16 bits: left-align the field, then shift right
arithmetically (R86). -/
def signExtend (value : Word) (bitCount : Nat) (_h : 1 ≤ bitCount ∧ bitCount ≤ 16 := by decide) : Word :=
  (value <<< (16 - bitCount)).sshiftRight (16 - bitCount)

/-- The check on bit 15 (R88). -/
def isNegative (word : Word) : Bool := getBit word 15 == 1#16

/-- The other check on bit 15, true of 0 (R89). DESIGN CHOICE of the spec, D12, log entry 17: safe, nothing uses it. -/
def isPositive (word : Word) : Bool := getBit word 15 == 0#16

end Sys2Proof.Bits
end

