-- ==== Sys2Proof/Syntax.lean ====
section
/-! DEFINITION. The instructions: one constructor per row of spec/opcode_table.json (30_encoding.md R63), and the
enumerated opcode type of the dispatch (41_cycle.md R103). Fields are the raw bits of the instruction word, so every
term is an instruction the encoding has. Bits the core ignores (R66) are no field, but for TRAP, whose whole word goes to
the dispatcher (R180), and the reserved rows, whose whole word is in the fault record (R185). -/

namespace Sys2Proof

/-- The 16 values of IR[15:12] (R61, R62): 14 live opcodes and 2 reserved ones. -/
inductive Opcode where
  | br | add | ld | st | jsr | and | ldr | str | reserved8 | not | ldi | sti | jmp | reservedD | lea | trap
deriving DecidableEq, Repr

/-- One constructor per row of the opcode table. -/
inductive Instr where
  /-- ADD, register form (R120). -/
  | addReg (dr sr1 sr2 : RegId)
  /-- ADD, immediate form (R121). -/
  | addImm (dr sr1 : RegId) (imm5 : BitVec 5)
  /-- AND, register form (R122). -/
  | andReg (dr sr1 sr2 : RegId)
  /-- AND, immediate form (R123). -/
  | andImm (dr sr1 : RegId) (imm5 : BitVec 5)
  /-- NOT (R124). -/
  | not (dr sr1 : RegId)
  /-- BR, with the mask n z p in bits 2, 1, 0 of `nzp` (R140). -/
  | br (nzp : Cond) (pcOffset9 : BitVec 9)
  /-- JMP, RET when the base is R7 (R141, R142). -/
  | jmp (baseR : RegId)
  /-- JSR (R145). -/
  | jsr (pcOffset11 : BitVec 11)
  /-- JSRR (R147). -/
  | jsrr (baseR : RegId)
  /-- LD (R160). -/
  | ld (dr : RegId) (pcOffset9 : BitVec 9)
  /-- LDI (R161). -/
  | ldi (dr : RegId) (pcOffset9 : BitVec 9)
  /-- LDR (R162). -/
  | ldr (dr baseR : RegId) (offset6 : BitVec 6)
  /-- LEA (R163). -/
  | lea (dr : RegId) (pcOffset9 : BitVec 9)
  /-- ST (R164). -/
  | st (sr : RegId) (pcOffset9 : BitVec 9)
  /-- STI (R165). -/
  | sti (sr : RegId) (pcOffset9 : BitVec 9)
  /-- STR (R166). -/
  | str (sr baseR : RegId) (offset6 : BitVec 6)
  /-- TRAP: `high4` is IR[11:8], which the core ignores but passes on (R180). -/
  | trap (high4 : BitVec 4) (trapvect8 : BitVec 8)
  /-- Reserved opcode 0x8 with its low 12 bits (R185). -/
  | reserved8 (low12 : BitVec 12)
  /-- Reserved opcode 0xD with its low 12 bits (R185). -/
  | reservedD (low12 : BitVec 12)
deriving DecidableEq, Repr

end Sys2Proof
end

