-- ==== Sys2Proof/WellFormed.lean ====
section
/-! DEFINITION. When an instruction is well formed: its immediate, read as a signed number, lies in the range 30_encoding.md
R65 gives it. Register fields need no check, since all 8 values are legal (R64). The fields of Instr have exactly the widths
of the encoding, so the check holds of every term; what it refuses are numbers that no field holds. -/

namespace Sys2Proof

/-- The signed number `v` fits a two's-complement field of `bits` bits (R65: imm5 -16..+15, offset6 -32..+31,
PCoffset9 -256..+255, PCoffset11 -1024..+1023). -/
def fitsSigned (bits : Nat) (v : Int) : Bool :=
  decide (-(2 ^ (bits - 1) : Int) ≤ v) && decide (v < (2 ^ (bits - 1) : Int))

/-- The width and the signed value of an instruction's immediate, where it has one (the table of R65). -/
def Instr.immediate? : Instr → Option (Nat × Int)
  | .addReg _ _ _ => none
  | .addImm _ _ imm5 => some (5, imm5.toInt)
  | .andReg _ _ _ => none
  | .andImm _ _ imm5 => some (5, imm5.toInt)
  | .not _ _ => none
  | .br _ off => some (9, off.toInt)
  | .jmp _ => none
  | .jsr off => some (11, off.toInt)
  | .jsrr _ => none
  | .ld _ off => some (9, off.toInt)
  | .ldi _ off => some (9, off.toInt)
  | .ldr _ _ off => some (6, off.toInt)
  | .lea _ off => some (9, off.toInt)
  | .st _ off => some (9, off.toInt)
  | .sti _ off => some (9, off.toInt)
  | .str _ _ off => some (6, off.toInt)
  | .trap _ _ => none
  | .reserved8 _ => none
  | .reservedD _ => none

/-- An immediate operand is well formed: none, or a number that fits its field. -/
def immediateOk : Option (Nat × Int) → Bool
  | none => true
  | some (bits, v) => fitsSigned bits v

/-- The well-formedness check of an instruction. -/
def Instr.wellFormed (i : Instr) : Bool := immediateOk i.immediate?

end Sys2Proof
end

