-- ==== Sys2Proof/Decode.lean ====
section
/-! DEFINITION. Decoding an instruction word (30_encoding.md R60 to R69, 41_cycle.md R103, R104), the encoder, and the
opcode table's rows as masks and patterns. Decoding is total: every word is an instruction or one of the two reserved rows,
which are constructors of their own (R69). -/

namespace Sys2Proof

open Bits

/-! ### The opcode map -/

/-- OpcodeMap (R62): the opcode at each value of IR[15:12], in order from 0x0 to 0xF. The numbers are the spec's own
decision (D1, D2), PRESUMED from textbook LC-3, log entry 6: unsafe if the repository uses others. -/
def opcodeMap : Vector Opcode 16 :=
  #v[.br, .add, .ld, .st, .jsr, .and, .ldr, .str, .reserved8, .not, .ldi, .sti, .jmp, .reservedD, .lea, .trap]

/-- The same map from name to number, for the encoder (R62). -/
def Opcode.code : Opcode → BitVec 4
  | .br => 0x0#4
  | .add => 0x1#4
  | .ld => 0x2#4
  | .st => 0x3#4
  | .jsr => 0x4#4
  | .and => 0x5#4
  | .ldr => 0x6#4
  | .str => 0x7#4
  | .reserved8 => 0x8#4
  | .not => 0x9#4
  | .ldi => 0xA#4
  | .sti => 0xB#4
  | .jmp => 0xC#4
  | .reservedD => 0xD#4
  | .lea => 0xE#4
  | .trap => 0xF#4

/-! ### Fields (R11, R63) -/

/-- IR[15:12]. -/
def opcodeField (ir : Word) : BitVec 4 := (getBits ir 12 4).setWidth 4
/-- IR[11:9]: DR, SR or nzp. -/
def field11to9 (ir : Word) : BitVec 3 := (getBits ir 9 3).setWidth 3
/-- IR[8:6]: SR1 or BaseR. -/
def field8to6 (ir : Word) : BitVec 3 := (getBits ir 6 3).setWidth 3
/-- IR[2:0]: SR2. -/
def field2to0 (ir : Word) : BitVec 3 := (getBits ir 0 3).setWidth 3
/-- IR[4:0]: imm5. -/
def imm5Field (ir : Word) : BitVec 5 := (getBits ir 0 5).setWidth 5
/-- IR[5:0]: offset6. -/
def offset6Field (ir : Word) : BitVec 6 := (getBits ir 0 6).setWidth 6
/-- IR[8:0]: PCoffset9. -/
def pcOffset9Field (ir : Word) : BitVec 9 := (getBits ir 0 9).setWidth 9
/-- IR[10:0]: PCoffset11. -/
def pcOffset11Field (ir : Word) : BitVec 11 := (getBits ir 0 11).setWidth 11
/-- IR[7:0]: trapvect8. -/
def trapvect8Field (ir : Word) : BitVec 8 := (getBits ir 0 8).setWidth 8
/-- IR[11:8] of a TRAP word. -/
def high4Field (ir : Word) : BitVec 4 := (getBits ir 8 4).setWidth 4
/-- IR[11:0] of a reserved word. -/
def low12Field (ir : Word) : BitVec 12 := (getBits ir 0 12).setWidth 12

/-- The opcode of a word (R103). -/
def opcodeOf (ir : Word) : Opcode := opcodeMap[(opcodeField ir).toNat]'((opcodeField ir).isLt)

/-! ### Decoding -/

/-- ADD: IR[5] picks the form (R120, R121). -/
def decodeAdd (ir : Word) : Instr :=
  if getBit ir 5 = 0#16 then .addReg (field11to9 ir) (field8to6 ir) (field2to0 ir)
  else .addImm (field11to9 ir) (field8to6 ir) (imm5Field ir)

/-- AND: IR[5] picks the form (R122, R123). -/
def decodeAnd (ir : Word) : Instr :=
  if getBit ir 5 = 0#16 then .andReg (field11to9 ir) (field8to6 ir) (field2to0 ir)
  else .andImm (field11to9 ir) (field8to6 ir) (imm5Field ir)

/-- Opcode 0x4: longFlag IR[11] picks JSR or JSRR (R145, R147). -/
def decodeJsr (ir : Word) : Instr :=
  if getBit ir 11 = 1#16 then .jsr (pcOffset11Field ir) else .jsrr (field8to6 ir)

/-- The decoder: the opcode picks one row, whose fields are cut out at the positions of R63; other bits are ignored
(R66, D4, log entry 8). -/
def decode (ir : Word) : Instr :=
  match opcodeOf ir with
  | .br => .br (field11to9 ir) (pcOffset9Field ir)
  | .add => decodeAdd ir
  | .ld => .ld (field11to9 ir) (pcOffset9Field ir)
  | .st => .st (field11to9 ir) (pcOffset9Field ir)
  | .jsr => decodeJsr ir
  | .and => decodeAnd ir
  | .ldr => .ldr (field11to9 ir) (field8to6 ir) (offset6Field ir)
  | .str => .str (field11to9 ir) (field8to6 ir) (offset6Field ir)
  | .reserved8 => .reserved8 (low12Field ir)
  | .not => .not (field11to9 ir) (field8to6 ir)
  | .ldi => .ldi (field11to9 ir) (pcOffset9Field ir)
  | .sti => .sti (field11to9 ir) (pcOffset9Field ir)
  | .jmp => .jmp (field8to6 ir)
  | .reservedD => .reservedD (low12Field ir)
  | .lea => .lea (field11to9 ir) (pcOffset9Field ir)
  | .trap => .trap (high4Field ir) (trapvect8Field ir)

/-! ### Encoding -/

/-- A field placed with its lowest bit at `lo`. -/
def place {n : Nat} (v : BitVec n) (lo : Nat) : Word := v.setWidth 16 <<< lo

/-- The word of an instruction (R62, R63), with the textbook values in the bits the core ignores, which R66 asks of an
encoder: 111111 in NOT, 0 elsewhere. -/
def encode : Instr → Word
  | .addReg dr sr1 sr2 => place Opcode.add.code 12 ||| place dr 9 ||| place sr1 6 ||| place sr2 0
  | .addImm dr sr1 imm5 => place Opcode.add.code 12 ||| place dr 9 ||| place sr1 6 ||| place 1#1 5 ||| place imm5 0
  | .andReg dr sr1 sr2 => place Opcode.and.code 12 ||| place dr 9 ||| place sr1 6 ||| place sr2 0
  | .andImm dr sr1 imm5 => place Opcode.and.code 12 ||| place dr 9 ||| place sr1 6 ||| place 1#1 5 ||| place imm5 0
  | .not dr sr1 => place Opcode.not.code 12 ||| place dr 9 ||| place sr1 6 ||| place 0x3F#6 0
  | .br nzp off => place Opcode.br.code 12 ||| place nzp 9 ||| place off 0
  | .jmp baseR => place Opcode.jmp.code 12 ||| place baseR 6
  | .jsr off => place Opcode.jsr.code 12 ||| place 1#1 11 ||| place off 0
  | .jsrr baseR => place Opcode.jsr.code 12 ||| place baseR 6
  | .ld dr off => place Opcode.ld.code 12 ||| place dr 9 ||| place off 0
  | .ldi dr off => place Opcode.ldi.code 12 ||| place dr 9 ||| place off 0
  | .ldr dr baseR off => place Opcode.ldr.code 12 ||| place dr 9 ||| place baseR 6 ||| place off 0
  | .lea dr off => place Opcode.lea.code 12 ||| place dr 9 ||| place off 0
  | .st sr off => place Opcode.st.code 12 ||| place sr 9 ||| place off 0
  | .sti sr off => place Opcode.sti.code 12 ||| place sr 9 ||| place off 0
  | .str sr baseR off => place Opcode.str.code 12 ||| place sr 9 ||| place baseR 6 ||| place off 0
  | .trap high4 trapvect8 => place Opcode.trap.code 12 ||| place high4 8 ||| place trapvect8 0
  | .reserved8 low12 => place Opcode.reserved8.code 12 ||| place low12 0
  | .reservedD low12 => place Opcode.reservedD.code 12 ||| place low12 0

/-! ### The table's rows -/

/-- A row of spec/opcode_table.json: the words with `word &&& mask = pattern` are its own. -/
structure Row where
  mnemonic : String
  format : String
  mask : Word
  pattern : Word
deriving DecidableEq, Repr

/-- A word belongs to a row. -/
def Row.has (r : Row) (ir : Word) : Bool := ir &&& r.mask == r.pattern

/-- The row of an instruction, with its mask and match as the rules R120 to R185 give them. -/
def Instr.row : Instr → Row
  | .addReg _ _ _ => ⟨"ADD", "operate-register", 0xF020#16, 0x1000#16⟩
  | .addImm _ _ _ => ⟨"ADD", "operate-immediate", 0xF020#16, 0x1020#16⟩
  | .andReg _ _ _ => ⟨"AND", "operate-register", 0xF020#16, 0x5000#16⟩
  | .andImm _ _ _ => ⟨"AND", "operate-immediate", 0xF020#16, 0x5020#16⟩
  | .not _ _ => ⟨"NOT", "operate-unary", 0xF000#16, 0x9000#16⟩
  | .br _ _ => ⟨"BR", "pc-relative-branch", 0xF000#16, 0x0000#16⟩
  | .jmp _ => ⟨"JMP", "register-jump", 0xF000#16, 0xC000#16⟩
  | .jsr _ => ⟨"JSR", "pc-relative-call", 0xF800#16, 0x4800#16⟩
  | .jsrr _ => ⟨"JSRR", "register-call", 0xF800#16, 0x4000#16⟩
  | .ld _ _ => ⟨"LD", "pc-relative-load", 0xF000#16, 0x2000#16⟩
  | .ldi _ _ => ⟨"LDI", "pc-relative-indirect-load", 0xF000#16, 0xA000#16⟩
  | .ldr _ _ _ => ⟨"LDR", "base-offset-load", 0xF000#16, 0x6000#16⟩
  | .lea _ _ => ⟨"LEA", "pc-relative-address", 0xF000#16, 0xE000#16⟩
  | .st _ _ => ⟨"ST", "pc-relative-store", 0xF000#16, 0x3000#16⟩
  | .sti _ _ => ⟨"STI", "pc-relative-indirect-store", 0xF000#16, 0xB000#16⟩
  | .str _ _ _ => ⟨"STR", "base-offset-store", 0xF000#16, 0x7000#16⟩
  | .trap _ _ => ⟨"TRAP", "trap", 0xF000#16, 0xF000#16⟩
  | .reserved8 _ => ⟨"RESERVED_8", "reserved", 0xF000#16, 0x8000#16⟩
  | .reservedD _ => ⟨"RESERVED_D", "reserved", 0xF000#16, 0xD000#16⟩

/-- The 19 rows of the table, in its order. -/
def encodingTable : List Row :=
  [Instr.addReg 0 0 0, .addImm 0 0 0, .andReg 0 0 0, .andImm 0 0 0, .not 0 0, .br 0 0, .jmp 0, .jsr 0, .jsrr 0,
   .ld 0 0, .ldi 0 0, .ldr 0 0 0, .lea 0 0, .st 0 0, .sti 0 0, .str 0 0 0, .trap 0 0, .reserved8 0, .reservedD 0].map Instr.row

/-! ### The host's entry -/

/-- What the decoder reads from the instruction whose bits are `w`: every row is one 16-bit word (R60). -/
def decodeTableWord (_nbits w : Nat) : Option Instr := some (decode (BitVec.ofNat 16 w))

end Sys2Proof
end

