-- ==== Sys2Proof/Machine/Ops.lean ====
section
/-! DEFINITION. The named operations over registers and memory (00_scope.md R10, R12), the PC advance, the fetch, the
engine fault, and the delegation to the trap dispatcher with the return from it. -/

namespace Sys2Proof.Machine

/-! ### Memory (20_memory.md) -/

/-- What an address reads as that no entry lists. The spec gives no initial contents (R31). DESIGN CHOICE, log entry 2:
unsafe where a claim rests on the word 0x0000 of an unwritten address. -/
def Memory.unlisted : Word := 0#16

/-- The word listed at an address, or the unlisted word. -/
def cellsRead : List Cell → Nat → Word
  | [], _ => Memory.unlisted
  | (k, v) :: rest, a => if k = a then v else cellsRead rest a

/-- Put a word into its place among rising addresses. -/
def cellsPlace : List Cell → Nat → Word → List Cell
  | [], a, v => [(a, v)]
  | (k, w) :: rest, a, v => if a < k then (a, v) :: (k, w) :: rest else (k, w) :: cellsPlace rest a v

/-- MemRead(addr, 1): every address is backed and a read changes nothing (R40, R46). -/
def Memory.read (m : Memory) (a : Word) : Word := cellsRead m.cells a.toNat

/-- MemWrite(addr, 1, v): only the addressed word changes (R46). The old entry goes; a new one is listed unless it is the
unlisted word. -/
def Memory.write (m : Memory) (a v : Word) : Memory :=
  let rest := m.cells.filter (fun c => c.1 != a.toNat)
  ⟨if v = Memory.unlisted then rest else cellsPlace rest a.toNat v⟩

/-- Addresses strictly rising from `lo`, each in the address space, no entry equal to the unlisted word. -/
def cellsWf : Nat → List Cell → Bool
  | _, [] => true
  | lo, (k, v) :: rest => decide (lo ≤ k) && decide (k < wordCount) && (v != Memory.unlisted) && cellsWf (k + 1) rest

/-- The canonical form of memory: equal memories are equal data. -/
def Memory.wf (m : Memory) : Bool := cellsWf 0 m.cells

/-! ### State primitives (R10) -/

/-- x[i]. -/
def State.reg (s : State) (i : RegId) : Word := s.regs[i.toNat]'(i.isLt)

/-- x[i] <- v: no register is hard-wired (R21). -/
def State.setReg (s : State) (i : RegId) (v : Word) : State := { s with regs := s.regs.set i.toNat v i.isLt }

/-- pc <- target. -/
def State.setPc (s : State) (target : Word) : State := { s with pc := target }

/-- cond <- f. -/
def State.setCond (s : State) (f : Cond) : State := { s with cond := f }

/-- MemRead(addr, 1). -/
def State.load (s : State) (a : Word) : Word := s.mem.read a

/-- MemWrite(addr, 1, v). -/
def State.store (s : State) (a v : Word) : State := { s with mem := s.mem.write a v }

/-! ### The cycle's first steps (41_cycle.md) -/

/-- Step 1: the word at the PC, read like any other word (R100, R53). -/
def State.fetch (s : State) : Word := s.load s.pc

/-- Step 2: the PC advances by one, modulo 65536, before the body runs (R101). -/
def State.advance (s : State) : State := s.setPc (s.pc + 1#16)

/-- Step 3: the pair a diagnostic log line is made from, the pre-advance address and the fetched word (R102, R211). The
log is no state and no rule reads it, log entry 16: safe. -/
def State.logRecord (s : State) : Word × Word := (s.pc, s.fetch)

/-! ### The engine fault (45_trap_reserved.md, 60_exceptions.md R205) -/

/-- Raise the engine fault for the word `ir` in `s`, the state before the step: nothing is saved, nothing changes, no
handler is entered, the run ends (R185, R186, R205; C3). There is no return from it (R187, R206). -/
def engineFault (ir : Word) (s : State) : Host.Outcome State Fault Refusal :=
  .fault (.engineFault { pc := s.pc, word := ir, opcode := opcodeField ir } s)

/-! ### Trap delegation and return (R180 to R183, R204, R206) -/

/-- One write of the dispatcher through the store (R12). -/
def State.applyWrite (s : State) : StoreWrite → State
  | .reg i v => s.setReg i v
  | .pc target => s.setPc target
  | .cond f => s.setCond f
  | .mem a v => s.store a v

/-- The dispatcher's writes, in order. -/
def State.applyWrites (s : State) (writes : List StoreWrite) : State := writes.foldl State.applyWrite s

/-- TrapService's reply to a call in state `s` with word `ir`: the next one the state holds, else the free one (R181). -/
def State.nextTrapReply (s : State) (ir : Word) : TrapReply :=
  match s.trapReplies with
  | r :: _ => r
  | [] => Config.trapReply s.trapDraws s ir

/-- The draw is used up. -/
def State.countTrap (s : State) : State :=
  { s with trapReplies := s.trapReplies.tail, trapDraws := s.trapDraws + 1 }

/-- The return from the dispatcher: its status is the step's, unchanged; execution goes on at the PC it left (R182, R206).
`s` is the state the service was called with. -/
def trapReturn (ir : Word) (s : State) : TrapReply → Host.Outcome State Fault Refusal
  | .noResult => .fault (.trapStuck ir s)
  | .returns writes .goOn => .next (s.countTrap.applyWrites writes)
  | .returns writes .halt => .fault (.halt (s.countTrap.applyWrites writes))

/-- Hand the whole step to the dispatcher: `s` has the advanced PC and no other change (R180, R204). -/
def trapDelegate (ir : Word) (s : State) : Host.Outcome State Fault Refusal :=
  trapReturn ir s (s.nextTrapReply ir)

end Sys2Proof.Machine
end

