-- ==== Sys2Proof/Machine/Flags.lean ====
section
/-! DEFINITION. The condition flags: their layout (10_state.md R25), the flag policy (41_cycle.md R106, R107) and the
branch test (43_control.md R140). -/

namespace Sys2Proof.Machine

/-- NEGATIVE. The three bit positions are the spec's own decision D3, PRESUMED from textbook LC-3, log entry 7: unsafe if the
repository's layout differs. -/
def flagN : Cond := 0b100#3
/-- ZERO. -/
def flagZ : Cond := 0b010#3
/-- POSITIVE. -/
def flagP : Cond := 0b001#3

/-- Exactly one flag is set (R27). -/
def oneHot (c : Cond) : Bool := c == flagN || c == flagZ || c == flagP

/-- The flag of a value just written: zero first, then the sign bit (R106). -/
def flagOf (v : Word) : Cond :=
  if v = 0#16 then flagZ
  else if Bits.isNegative v then flagN
  else flagP

/-- setcc(v): the whole condition register is overwritten (R106). -/
def State.setcc (s : State) (v : Word) : State := s.setCond (flagOf v)

/-- x[DR] <- r; setcc(r): how every flag-setting instruction ends (R107). -/
def State.writeResult (s : State) (dr : RegId) (r : Word) : State := (s.setReg dr r).setcc r

/-- BR is taken: the mask is 000, or it meets a set flag (R140). -/
def branchTaken (nzp : Cond) (cond : Cond) : Bool := nzp == 0#3 || (nzp &&& cond) != 0#3

end Sys2Proof.Machine
end

