-- ==== Sys2Proof/Machine/Operands.lean ====
section
/-! DEFINITION. Operand forms: the sign-extended immediates (30_encoding.md R65) and the three address modes
(44_loadstore.md R167). The state given is the one with the advanced PC. -/

namespace Sys2Proof.Machine

open Bits

/-- imm5 as a word (R65). -/
def immWord (imm5 : BitVec 5) : Word := signExtend (imm5.setWidth 16) 5
/-- offset6 as a word (R65). -/
def offset6Word (off : BitVec 6) : Word := signExtend (off.setWidth 16) 6
/-- PCoffset9 as a word (R65). -/
def offset9Word (off : BitVec 9) : Word := signExtend (off.setWidth 16) 9
/-- PCoffset11 as a word (R65). -/
def offset11Word (off : BitVec 11) : Word := signExtend (off.setWidth 16) 11

/-- The PC-relative address: advanced PC plus offset, modulo 65536 (R167, R143). -/
def State.pcRelative (s : State) (off : BitVec 9) : Word := s.pc + offset9Word off

/-- The target of JSR (R145). -/
def State.pcRelative11 (s : State) (off : BitVec 11) : Word := s.pc + offset11Word off

/-- The indirect address: the word at the PC-relative address (R167). -/
def State.indirect (s : State) (off : BitVec 9) : Word := s.load (s.pcRelative off)

/-- The base + offset address (R167). -/
def State.baseOffset (s : State) (baseR : RegId) (off : BitVec 6) : Word := s.reg baseR + offset6Word off

end Sys2Proof.Machine
end

