-- ==== Sys2Proof/Machine/Control.lean ====
section
/-! DEFINITION. Control transfer: BR, JMP, JSR, JSRR (43_control.md). None touches COND (R107). -/

namespace Sys2Proof.Machine

/-- BR: mask 000 always branches (R140, C4). -/
def execBr (nzp : Cond) (off : BitVec 9) (s : State) : Host.Outcome State Fault Refusal :=
  let s1 := s.advance
  .next (if branchTaken nzp s1.cond then s1.setPc (s1.pcRelative off) else s1)

/-- JMP; RET is JMP R7 (R141, R142). -/
def execJmp (baseR : RegId) (s : State) : Host.Outcome State Fault Refusal :=
  .next (s.advance.setPc (s.reg baseR))

/-- x[7] <- pc: the link write of JSR and JSRR, done before any other register is read (R146). -/
def State.link (s : State) : State := s.setReg 7#3 s.pc

/-- JSR (R145). -/
def execJsr (off : BitVec 11) (s : State) : Host.Outcome State Fault Refusal :=
  let s1 := s.advance.link
  .next (s1.setPc (s1.pcRelative11 off))

/-- JSRR: the base is read after R7 is written (R146, R147, C4). -/
def execJsrr (baseR : RegId) (s : State) : Host.Outcome State Fault Refusal :=
  let s1 := s.advance.link
  .next (s1.setPc (s1.reg baseR))

end Sys2Proof.Machine
end

