-- ==== Sys2Proof/Machine/LoadStore.lean ====
section
/-! DEFINITION. Loads, LEA and stores (44_loadstore.md). Loads and LEA set COND from the word written; stores do not touch
it (R168). -/

namespace Sys2Proof.Machine

/-- LD (R160). -/
def execLd (dr : RegId) (off : BitVec 9) (s : State) : Host.Outcome State Fault Refusal :=
  let s1 := s.advance
  .next (s1.writeResult dr (s1.load (s1.pcRelative off)))

/-- LDI: the pointer is read first, the flags are the word's, not the pointer's (R161). -/
def execLdi (dr : RegId) (off : BitVec 9) (s : State) : Host.Outcome State Fault Refusal :=
  let s1 := s.advance
  .next (s1.writeResult dr (s1.load (s1.indirect off)))

/-- LDR (R162). -/
def execLdr (dr baseR : RegId) (off : BitVec 6) (s : State) : Host.Outcome State Fault Refusal :=
  let s1 := s.advance
  .next (s1.writeResult dr (s1.load (s1.baseOffset baseR off)))

/-- LEA: the address itself, with the flags set from it (R163, C4). -/
def execLea (dr : RegId) (off : BitVec 9) (s : State) : Host.Outcome State Fault Refusal :=
  let s1 := s.advance
  .next (s1.writeResult dr (s1.pcRelative off))

/-- ST (R164). -/
def execSt (sr : RegId) (off : BitVec 9) (s : State) : Host.Outcome State Fault Refusal :=
  let s1 := s.advance
  .next (s1.store (s1.pcRelative off) (s1.reg sr))

/-- STI (R165). -/
def execSti (sr : RegId) (off : BitVec 9) (s : State) : Host.Outcome State Fault Refusal :=
  let s1 := s.advance
  .next (s1.store (s1.indirect off) (s1.reg sr))

/-- STR (R166). -/
def execStr (sr baseR : RegId) (off : BitVec 6) (s : State) : Host.Outcome State Fault Refusal :=
  let s1 := s.advance
  .next (s1.store (s1.baseOffset baseR off) (s1.reg sr))

end Sys2Proof.Machine
end

