-- ==== Sys2Proof/Machine/Operate.lean ====
section
/-! DEFINITION. The operate instructions ADD, AND and NOT (42_operate.md). A meaning starts from the state before the step
and advances the PC itself (log entry 13); all sources are read before the destination is written (R225). -/

namespace Sys2Proof.Machine

/-- ADD, register form (R120). -/
def execAddReg (dr sr1 sr2 : RegId) (s : State) : Host.Outcome State Fault Refusal :=
  .next (s.advance.writeResult dr (s.reg sr1 + s.reg sr2))

/-- ADD, immediate form (R121). -/
def execAddImm (dr sr1 : RegId) (imm5 : BitVec 5) (s : State) : Host.Outcome State Fault Refusal :=
  .next (s.advance.writeResult dr (s.reg sr1 + immWord imm5))

/-- AND, register form (R122). -/
def execAndReg (dr sr1 sr2 : RegId) (s : State) : Host.Outcome State Fault Refusal :=
  .next (s.advance.writeResult dr (s.reg sr1 &&& s.reg sr2))

/-- AND, immediate form: the immediate is sign-extended first (R123). -/
def execAndImm (dr sr1 : RegId) (imm5 : BitVec 5) (s : State) : Host.Outcome State Fault Refusal :=
  .next (s.advance.writeResult dr (s.reg sr1 &&& immWord imm5))

/-- NOT (R124). -/
def execNot (dr sr1 : RegId) (s : State) : Host.Outcome State Fault Refusal :=
  .next (s.advance.writeResult dr (~~~(s.reg sr1)))

end Sys2Proof.Machine
end

