-- ==== Sys2Proof/Machine/Trap.lean ====
section
/-! DEFINITION. TRAP and the two reserved opcodes (45_trap_reserved.md). -/

namespace Sys2Proof.Machine

/-- TRAP: delegation and nothing else. No link in R7, no vector table, no flags; the dispatcher gets the whole word
(R180, R204, C4). -/
def execTrap (high4 : BitVec 4) (trapvect8 : BitVec 8) (s : State) : Host.Outcome State Fault Refusal :=
  trapDelegate (encode (.trap high4 trapvect8)) s.advance

/-- Reserved opcode 0x8: the engine fault on the state before the step (R185, R186). -/
def execReserved8 (low12 : BitVec 12) (s : State) : Host.Outcome State Fault Refusal :=
  engineFault (encode (.reserved8 low12)) s

/-- Reserved opcode 0xD: the engine fault on the state before the step (R185, R186). -/
def execReservedD (low12 : BitVec 12) (s : State) : Host.Outcome State Fault Refusal :=
  engineFault (encode (.reservedD low12)) s

end Sys2Proof.Machine
end

