-- ==== Sys2Proof/Machine/Step.lean ====
section
/-! DEFINITION. One step, executeInstruction (00_scope.md R15, 41_cycle.md R109): fetch, decode, run. A meaning advances the
PC itself, so step adds nothing around it. -/

namespace Sys2Proof.Machine

/-- One call of executeInstruction (R109). -/
def step (s : State) : Host.Outcome State Fault Refusal := exec (decode s.fetch) s

/-- The state with the instruction word `w` at the PC, where the next step fetches it: what the loader does (R222), log
entry 18. Every instruction is one word (R60). -/
def State.withFetchWord (s : State) (_nbits w : Nat) : State := s.store s.pc (BitVec.ofNat 16 w)

end Sys2Proof.Machine
end

