-- ==== Sys2Proof/Machine/Reference.lean ====
section
/-! DEFINITION. executeInstruction as 41_cycle.md R109 writes it, with the handlers' pseudocode at the level of instruction
words: fields by getBits, immediates by signExtend of a field. It is no part of the machine, whose step decodes first; a
statement says that the two agree. -/

namespace Sys2Proof.Machine

open Bits

/-- A register field of three bits. -/
def regBits (ir : Word) (start : Nat) (h : 1 ≤ 3 ∧ start + 3 ≤ 16 := by decide) : RegId :=
  (getBits ir start 3 h).setWidth 3

/-- R109, with `s` the state after step 2. -/
def executeInstruction (before : State) : Host.Outcome State Fault Refusal :=
  let ir := before.load before.pc
  let s := before.setPc (before.pc + 1#16)
  let dr := regBits ir 9
  let sr1 := regBits ir 6
  let sr2 := regBits ir 0
  let imm5 := signExtend (getBits ir 0 5) 5
  let offset6 := signExtend (getBits ir 0 6) 6
  let offset9 := signExtend (getBits ir 0 9) 9
  let offset11 := signExtend (getBits ir 0 11) 11
  let result (r : Word) : Host.Outcome State Fault Refusal := .next ((s.setReg dr r).setcc r)
  match (getBits ir 12 4).toNat with
  | 0x1 => if getBits ir 5 1 = 0#16 then result (s.reg sr1 + s.reg sr2) else result (s.reg sr1 + imm5)
  | 0x5 => if getBits ir 5 1 = 0#16 then result (s.reg sr1 &&& s.reg sr2) else result (s.reg sr1 &&& imm5)
  | 0x9 => result (~~~(s.reg sr1))
  | 0x0 => .next (if dr == 0#3 || (dr &&& s.cond) != 0#3 then s.setPc (s.pc + offset9) else s)
  | 0xC => .next (s.setPc (s.reg sr1))
  | 0x4 =>
    let linked := s.setReg 7#3 s.pc
    if getBits ir 11 1 = 1#16 then .next (linked.setPc (linked.pc + offset11)) else .next (linked.setPc (linked.reg sr1))
  | 0x2 => result (s.load (s.pc + offset9))
  | 0xA => result (s.load (s.load (s.pc + offset9)))
  | 0x6 => result (s.load (s.reg sr1 + offset6))
  | 0xE => result (s.pc + offset9)
  | 0x3 => .next (s.store (s.pc + offset9) (s.reg dr))
  | 0xB => .next (s.store (s.load (s.pc + offset9)) (s.reg dr))
  | 0x7 => .next (s.store (s.reg sr1 + offset6) (s.reg dr))
  | 0xF => trapDelegate ir s
  | _ => .fault (.engineFault { pc := before.pc, word := ir, opcode := (getBits ir 12 4).setWidth 4 } before)

end Sys2Proof.Machine
end

