-- ==== Sys2Proof/Safety.lean ====
section
/-! DEFINITION. The terms claims use: the invariant of the model, frames, the kinds of instructions, and the end of a run
(60_exceptions.md R213). -/

namespace Sys2Proof

/-- The register an instruction writes of itself, where it writes one (R23). -/
def Instr.writesReg? : Instr → Option RegId
  | .addReg dr _ _ => some dr
  | .addImm dr _ _ => some dr
  | .andReg dr _ _ => some dr
  | .andImm dr _ _ => some dr
  | .not dr _ => some dr
  | .br _ _ => none
  | .jmp _ => none
  | .jsr _ => some 7#3
  | .jsrr _ => some 7#3
  | .ld dr _ => some dr
  | .ldi dr _ => some dr
  | .ldr dr _ _ => some dr
  | .lea dr _ => some dr
  | .st _ _ => none
  | .sti _ _ => none
  | .str _ _ _ => none
  | .trap _ _ => none
  | .reserved8 _ => none
  | .reservedD _ => none

/-- The flag-setting instructions (R107). -/
def Instr.setsFlags : Instr → Bool
  | .addReg _ _ _ => true
  | .addImm _ _ _ => true
  | .andReg _ _ _ => true
  | .andImm _ _ _ => true
  | .not _ _ => true
  | .br _ _ => false
  | .jmp _ => false
  | .jsr _ => false
  | .jsrr _ => false
  | .ld _ _ => true
  | .ldi _ _ => true
  | .ldr _ _ _ => true
  | .lea _ _ => true
  | .st _ _ => false
  | .sti _ _ => false
  | .str _ _ _ => false
  | .trap _ _ => false
  | .reserved8 _ => false
  | .reservedD _ => false

/-- The stores (R49). -/
def Instr.isStore : Instr → Bool
  | .addReg _ _ _ => false
  | .addImm _ _ _ => false
  | .andReg _ _ _ => false
  | .andImm _ _ _ => false
  | .not _ _ => false
  | .br _ _ => false
  | .jmp _ => false
  | .jsr _ => false
  | .jsrr _ => false
  | .ld _ _ => false
  | .ldi _ _ => false
  | .ldr _ _ _ => false
  | .lea _ _ => false
  | .st _ _ => true
  | .sti _ _ => true
  | .str _ _ _ => true
  | .trap _ _ => false
  | .reserved8 _ => false
  | .reservedD _ => false

end Sys2Proof

namespace Sys2Proof.Machine

/-- The invariant of every state the model makes: memory is in its canonical form. -/
def State.MemCanonical (s : State) : Prop := s.mem.wf = true

/-- `t` has the registers of `s`, but for those listed. -/
def RegsSameExcept (written : List RegId) (s t : State) : Prop := ∀ r, r ∉ written → t.reg r = s.reg r

/-- Every word of memory reads in `t` as it did in `s`, but for the addresses listed. -/
def MemSameExcept (written : List Word) (s t : State) : Prop := ∀ a, a ∉ written → t.load a = s.load a

/-- The dispatcher's replies are untouched. -/
def TrapsSame (s t : State) : Prop := t.trapReplies = s.trapReplies ∧ t.trapDraws = s.trapDraws

/-- `s` and `t` are the same as far as the spec's own state goes (R20): registers, PC, COND and every word of memory. -/
def SameArch (s t : State) : Prop :=
  (∀ r, t.reg r = s.reg r) ∧ t.pc = s.pc ∧ t.cond = s.cond ∧ ∀ a, t.load a = s.load a

/-- From `s` to `t` a flag-setting instruction ran with destination `dr` and result `r`: x[DR] is r, COND is the flag of r
(R106), the PC has advanced, nothing else changed. -/
def WroteResult (dr : RegId) (r : Word) (s t : State) : Prop :=
  t.reg dr = r ∧ t.cond = (if r = 0#16 then flagZ else if r.msb then flagN else flagP) ∧ t.pc = s.pc + 1#16 ∧
    RegsSameExcept [dr] s t ∧ MemSameExcept [] s t ∧ TrapsSame s t

/-- From `s` to `t` the word `v` was stored at `addr`, the PC has advanced, nothing else changed. -/
def Stored (addr v : Word) (s t : State) : Prop :=
  t.load addr = v ∧ MemSameExcept [addr] s t ∧ t.pc = s.pc + 1#16 ∧ t.cond = s.cond ∧ RegsSameExcept [] s t ∧
    TrapsSame s t

/-- From `s` to `t` the PC became `target` and nothing else changed. -/
def Jumped (target : Word) (s t : State) : Prop :=
  t.pc = target ∧ t.cond = s.cond ∧ RegsSameExcept [] s t ∧ MemSameExcept [] s t ∧ TrapsSame s t

/-- From `s` to `t` the advanced PC went into R7, the PC became `target`, and nothing else changed. -/
def Called (target : Word) (s t : State) : Prop :=
  t.reg 7#3 = s.pc + 1#16 ∧ t.pc = target ∧ t.cond = s.cond ∧ RegsSameExcept [7#3] s t ∧ MemSameExcept [] s t ∧
    TrapsSame s t

/-- IR[15:12] of the word that the next step executes (R103). -/
def State.nextOpcode (s : State) : BitVec 4 := s.fetch.extractLsb' 12 4

/-- A word whose opcode is reserved (R67). -/
def reservedOpcode (op : BitVec 4) : Bool := op == 0x8#4 || op == 0xD#4

/-- The run from `s` ends within `n` steps with the state the dispatcher left at Halt (R213). -/
def HaltsWith (n : Nat) (s final : State) : Prop := Sys2Proof.core.run n s = .fault (.halt final)

/-- The run from `s` ends within `n` steps with the engine fault (R213). -/
def FaultsWith (n : Nat) (s : State) (info : FaultInfo) (final : State) : Prop :=
  Sys2Proof.core.run n s = .fault (.engineFault info final)

end Sys2Proof.Machine
end

