-- ==== Sys2Proof/Certificates/Slice0/Obligations.lean ====
section
/-! DEFINITION. The statements for the provers, in the order of the spec's files. -/

open Sys2Proof Sys2Proof.Machine Sys2Proof.Bits

/-! ### Encoding (30_encoding.md) -/

/-- Words written out from R63 decode to the instruction they stand for. The opcode numbers are the spec's decision D1, D2
(log entry 6). -/
def Obligations.DecodesSampleWords : Prop :=
  decode 0x1642#16 = .addReg 3 1 2 ∧ decode 0x12A5#16 = .addImm 1 2 5 ∧ decode 0x54C4#16 = .andReg 2 3 4 ∧
  decode 0x0402#16 = .br 0b010 2 ∧ decode 0xC080#16 = .jmp 2 ∧ decode 0x4810#16 = .jsr 16 ∧ decode 0x40C0#16 = .jsrr 3 ∧
  decode 0xA202#16 = .ldi 1 2 ∧ decode 0x64FF#16 = .ldr 2 3 0x3F ∧ decode 0x7284#16 = .str 1 2 4 ∧
  decode 0xF025#16 = .trap 0 0x25 ∧ decode 0x8ABC#16 = .reserved8 0xABC

/-- Decoding the word of an instruction gives the instruction back, for every instruction and every operand (R63, R66). -/
def Obligations.DecodeOfEncode : Prop := ∀ i : Instr, decode (encode i) = i

/-- Encoding what a word decodes to gives the word back on every bit the core reads; the filler bits become the textbook
ones of R66 (ADD and AND register form [4:3], NOT [5:0], JMP [11:9] and [5:0], JSRR [10:9] and [5:0]). Words of all other
rows come back whole. -/
def Obligations.EncodeOfDecode : Prop :=
  ∀ w : Word, encode (decode w) =
    match decode w with
    | .addReg _ _ _ => w &&& 0xFFE7#16
    | .andReg _ _ _ => w &&& 0xFFE7#16
    | .not _ _ => w ||| 0x003F#16
    | .jmp _ => w &&& 0xF1C0#16
    | .jsrr _ => w &&& 0xF9C0#16
    | _ => w

/-- The bits the core ignores do not matter: two words that agree on the others decode alike (R66, the spec's decision D4,
log entry 8). -/
def Obligations.DecodeIgnoresFillerBits : Prop :=
  ∀ w v : Word,
    (w &&& 0xB020#16 = 0x1000#16 → v &&& 0xFFE7#16 = w &&& 0xFFE7#16 → decode v = decode w) ∧
    (w &&& 0xF000#16 = 0x9000#16 → v &&& 0xFFC0#16 = w &&& 0xFFC0#16 → decode v = decode w) ∧
    (w &&& 0xF000#16 = 0xC000#16 → v &&& 0xF1C0#16 = w &&& 0xF1C0#16 → decode v = decode w) ∧
    (w &&& 0xF800#16 = 0x4000#16 → v &&& 0xF9C0#16 = w &&& 0xF9C0#16 → decode v = decode w)

/-- Every word belongs to exactly one of the table's rows, the row of the instruction it decodes to (R69). -/
def Obligations.RowsPartitionWords : Prop :=
  ∀ w : Word, encodingTable.filter (fun r => r.has w) = [(decode w).row]

/-- The reserved words are those with opcode 0x8 or 0xD and no others (R67; D2, log entry 6). -/
def Obligations.ReservedWordsByOpcode : Prop :=
  ∀ w : Word,
    ((∃ low, decode w = .reserved8 low) ↔ w.extractLsb' 12 4 = 0x8#4) ∧
    ((∃ low, decode w = .reservedD low) ↔ w.extractLsb' 12 4 = 0xD#4)

/-! ### Primitives (40_bitfield.md) -/

/-- The primitives read and write the bits R80 to R83 name. -/
def Obligations.BitPrimitivesByBit : Prop :=
  ∀ (w : Word) (n : Nat) (h : n ≤ 15) (i : Nat),
    getBit w n h = (if w.getLsbD n then 1#16 else 0#16) ∧
    (setBit w n h).getLsbD i = (w.getLsbD i || decide (i = n)) ∧
    (clearBit w n h).getLsbD i = (w.getLsbD i && !decide (i = n))

/-- getBits gives the field right-justified, with zeros above it (R81). -/
def Obligations.GetBitsRightJustified : Prop :=
  ∀ (w : Word) (start width : Nat) (h : 1 ≤ width ∧ start + width ≤ 16) (i : Nat),
    (getBits w start width h).getLsbD i = (decide (i < width) && w.getLsbD (start + i))

/-- signExtend reads the low bits as two's complement: the signed value of the result is the field's; bits above the field
do not matter; the shift form and the mask form are the same (R86). -/
def Obligations.SignExtendIsTwosComplement : Prop :=
  ∀ (v : Word) (k : Nat) (h : 1 ≤ k ∧ k ≤ 16),
    signExtend v k h = (v <<< (16 - k)).sshiftRight (16 - k) ∧
    (signExtend v k h).toInt = (v.setWidth k).toInt ∧
    (∀ u : Word, u.setWidth k = v.setWidth k → signExtend u k h = signExtend v k h) ∧
    signExtend v k h =
      (let f := v &&& ((1#16 <<< k) - 1#16)
       if f.getLsbD (k - 1) then f ||| ~~~((1#16 <<< k) - 1#16) else f)

/-- The laws of R90: set and clear, the other bits, the field shifted back, and the signed value at 5, 6, 9 and 11 bits. -/
def Obligations.PrimitiveLaws : Prop :=
  (∀ (w : Word) (n : Nat) (h : n ≤ 15),
    getBit (setBit w n h) n h = 1#16 ∧ getBit (clearBit w n h) n h = 0#16 ∧
    ∀ (m : Nat) (hm : m ≤ 15), m ≠ n →
      getBit (setBit w n h) m hm = getBit w m hm ∧ getBit (clearBit w n h) m hm = getBit w m hm) ∧
  (∀ (w : Word) (start width : Nat) (h : 1 ≤ width ∧ start + width ≤ 16),
    getBits w start width h <<< start = w &&& (((1#16 <<< width) - 1#16) <<< start)) ∧
  (∀ f : BitVec 5, signExtend (f.setWidth 16) 5 = if f.toNat < 16 then BitVec.ofNat 16 f.toNat else BitVec.ofInt 16 (f.toNat - 32)) ∧
  (∀ f : BitVec 6, signExtend (f.setWidth 16) 6 = if f.toNat < 32 then BitVec.ofNat 16 f.toNat else BitVec.ofInt 16 (f.toNat - 64)) ∧
  (∀ f : BitVec 9, signExtend (f.setWidth 16) 9 = if f.toNat < 256 then BitVec.ofNat 16 f.toNat else BitVec.ofInt 16 (f.toNat - 512)) ∧
  (∀ f : BitVec 11, signExtend (f.setWidth 16) 11 = if f.toNat < 1024 then BitVec.ofNat 16 f.toNat else BitVec.ofInt 16 (f.toNat - 2048))

/-- The checks on bit 15 (R88, R89): isNegative is bit 15, isPositive its complement, so isPositive of 0 is true, the
spec's decision D12 (log entry 17). -/
def Obligations.SignChecksReadBitFifteen : Prop :=
  ∀ w : Word, isNegative w = w.getLsbD 15 ∧ isPositive w = !w.getLsbD 15

/-! ### State and memory (10_state.md, 20_memory.md) -/

/-- Eight registers, none hard-wired: a write to one is read back and leaves the other seven, the PC, COND and memory
(R21, R28). -/
def Obligations.RegistersAreIndependent : Prop :=
  ∀ (s : State) (i j : RegId) (v : Word),
    (s.setReg i v).reg j = (if j = i then v else s.reg j) ∧ (s.setReg i v).pc = s.pc ∧ (s.setReg i v).cond = s.cond ∧
    ∀ a, (s.setReg i v).load a = s.load a

/-- Memory is plain storage: a read gives the word last written there and a write changes only its own word (R46; D7, D20,
log entry 14). -/
def Obligations.MemoryReadAfterWrite : Prop :=
  ∀ (s : State) (a b v : Word), (s.store a v).load b = if b = a then v else s.load b

/-- Canonical memories that read alike are the same data. The canonical form is the model's (log entry 1). -/
def Obligations.CanonicalMemoryIsUnique : Prop :=
  ∀ m n : Memory, m.wf = true → n.wf = true → (∀ a, m.read a = n.read a) → m = n

/-- The reset state has canonical memory; every register, the PC and COND are 0 and every word reads 0x0000. The values are
the model's choices (log entries 2 to 5): the spec states none (R31). -/
def Obligations.ResetState : Prop :=
  State.reset.MemCanonical ∧ State.reset.pc = 0#16 ∧ State.reset.cond = 0#3 ∧ (∀ r, State.reset.reg r = 0#16) ∧
  ∀ a, State.reset.load a = 0#16

/-- Every step keeps memory in its canonical form, from any state that has it, with a next state or at Halt. -/
def Obligations.StepKeepsMemoryCanonical : Prop :=
  ∀ s : State, s.MemCanonical →
    (∀ t, step s = .next t → t.MemCanonical) ∧ (∀ f, step s = .fault (.halt f) → f.MemCanonical)

/-- A store is seen by the next fetch: where the stored word lies at the new PC, the next step runs it (R53, R224), for all
three stores. -/
def Obligations.StoreSeenByNextFetch : Prop :=
  ∀ (s : State) (i : Instr) (addr : Word) (sr : RegId),
    decode s.fetch = i →
    ((∃ off, i = .st sr off ∧ addr = s.advance.pcRelative off) ∨
     (∃ off, i = .sti sr off ∧ addr = s.advance.indirect off) ∨
     (∃ baseR off, i = .str sr baseR off ∧ addr = s.advance.baseOffset baseR off)) →
    addr = s.pc + 1#16 →
    ∃ t, step s = .next t ∧ t.fetch = s.reg sr ∧ step t = exec (decode (s.reg sr)) t

/-! ### The cycle (41_cycle.md) -/

/-- A step runs the instruction that the word at the PC decodes to; step adds nothing around exec, whose meanings advance
the PC themselves (R100, R103). -/
def Obligations.StepRunsDecodedInstruction : Prop :=
  ∀ (s : State) (i : Instr), decode (s.load s.pc) = i → step s = exec i s

/-- The step is executeInstruction of R109, word by word. Opcode values, ignored bits and the fault record are the spec's
decisions D1, D2, D4, D9 (log entries 6, 8, 11), Halt as a fault constructor is the model's (log entry 10). -/
def Obligations.StepIsExecuteInstruction : Prop := ∀ s : State, step s = executeInstruction s

/-- setcc overwrites COND with exactly one flag: ZERO for 0, NEGATIVE when bit 15 is set, else POSITIVE (R106); the flags
are bits 2, 1, 0 for N, Z, P, the spec's decision D3 (log entry 7). -/
def Obligations.SetccPolicy : Prop :=
  flagN = 0b100#3 ∧ flagZ = 0b010#3 ∧ flagP = 0b001#3 ∧
  ∀ (s : State) (v : Word),
    (v = 0#16 → (s.setcc v).cond = flagZ) ∧ (v.toInt < 0 → (s.setcc v).cond = flagN) ∧
    (0 < v.toInt → (s.setcc v).cond = flagP) ∧ oneHot (s.setcc v).cond = true ∧
    (s.setcc v).pc = s.pc ∧ (∀ r, (s.setcc v).reg r = s.reg r) ∧ ∀ a, (s.setcc v).load a = s.load a

/-- Which instructions set flags (R107): the seven run setcc on the value they write to R[DR]; branches, jumps, calls and
stores leave COND, JSR and JSRR among them; TRAP runs no setcc, so a service that does not write COND leaves it; a reserved
opcode changes nothing. That a service's effect is a list of writes is the model's form of a reply (log entry 9, DESIGN
CHOICE), and that the fault carries the state is the spec's decision D9 (log entry 11). -/
def Obligations.FlagPolicyOfInstructions : Prop :=
  (∀ (i : Instr) (s t : State), exec i s = .next t →
    (i.setsFlags = true → ∃ dr, i.writesReg? = some dr ∧ t.cond = flagOf (t.reg dr)) ∧
    (i.setsFlags = false → (∀ high4 vec, i ≠ .trap high4 vec) → t.cond = s.cond) ∧
    (∀ high4 vec, i = .trap high4 vec → ∀ writes, s.advance.nextTrapReply (encode i) = .returns writes .goOn →
      (∀ f, .cond f ∉ writes) → t.cond = s.cond)) ∧
  ∀ (low12 : BitVec 12) (s : State),
    (∃ info, exec (.reserved8 low12) s = .fault (.engineFault info s)) ∧
    (∃ info, exec (.reservedD low12) s = .fault (.engineFault info s))

/-- A one-hot COND stays one-hot over every step that is not a TRAP (R27; a trap service may write any value, D8). -/
def Obligations.OneHotCondKept : Prop :=
  ∀ s t : State, oneHot s.cond = true → s.nextOpcode ≠ 0xF#4 → step s = .next t → oneHot t.cond = true

/-- Each flag-setting instruction completes and leaves exactly one flag, whatever COND held before (R27, T4). -/
def Obligations.FlagSettersLeaveOneFlag : Prop :=
  ∀ (i : Instr) (s : State), i.setsFlags = true →
    ∃ t dr, exec i s = .next t ∧ i.writesReg? = some dr ∧ oneHot t.cond = true ∧
      (t.cond = flagZ ↔ t.reg dr = 0#16) ∧ (t.cond = flagN ↔ (t.reg dr).toInt < 0) ∧
      (t.cond = flagP ↔ 0 < (t.reg dr).toInt)

/-- Every word whose opcode is neither TRAP nor reserved completes with a next state, in every state (R105, R201). -/
def Obligations.LiveWordsContinue : Prop :=
  ∀ s : State, s.nextOpcode ≠ 0xF#4 → reservedOpcode s.nextOpcode = false → ∃ t, step s = .next t

/-- No step ends in a refusal. That is the model's promise of covering the whole table. -/
def Obligations.StepNeverRefuses : Prop := ∀ (s : State) (r : Refusal), step s ≠ .refused r

/-- A step that is not a TRAP writes no general register but the instruction's own destination, R[DR] or the link R7, and
leaves the dispatcher's replies (R23). -/
def Obligations.RegistersWrittenByTable : Prop :=
  ∀ s t : State, s.nextOpcode ≠ 0xF#4 → step s = .next t →
    RegsSameExcept ((decode s.fetch).writesReg?.toList) s t ∧ TrapsSame s t

/-- A step that is neither a store nor a TRAP leaves every word of memory (R49). -/
def Obligations.OnlyStoresAndTrapWriteMemory : Prop :=
  ∀ s t : State, s.nextOpcode ≠ 0xF#4 → (decode s.fetch).isStore = false → step s = .next t → MemSameExcept [] s t

/-- A step that runs a store completes, puts the source register at the address of its operand form and leaves every other
word (R46, R49): ST at the PC-relative address, STI at the pointer, STR at base + offset, each of the state with the advanced
PC. -/
def Obligations.StoresChangeOneWord : Prop :=
  ∀ (s : State) (sr : RegId),
    (∀ off, decode s.fetch = .st sr off → ∃ t, step s = .next t ∧
      t.load (s.advance.pcRelative off) = s.reg sr ∧ MemSameExcept [s.advance.pcRelative off] s t) ∧
    (∀ off, decode s.fetch = .sti sr off → ∃ t, step s = .next t ∧
      t.load (s.advance.indirect off) = s.reg sr ∧ MemSameExcept [s.advance.indirect off] s t) ∧
    (∀ baseR off, decode s.fetch = .str sr baseR off → ∃ t, step s = .next t ∧
      t.load (s.advance.baseOffset baseR off) = s.reg sr ∧ MemSameExcept [s.advance.baseOffset baseR off] s t)

/-! ### Operate instructions (42_operate.md) -/

/-- ADD, register form: encoding, result, flags, frame (R120). The opcode number is the spec's decision D1, log entry 6. -/
def Obligations.AddRegisterForm : Prop :=
  (∀ w : Word, w &&& 0xF020#16 = 0x1000#16 →
    decode w = .addReg (w.extractLsb' 9 3) (w.extractLsb' 6 3) (w.extractLsb' 0 3)) ∧
  ∀ (dr sr1 sr2 : RegId) (s : State), ∃ t, exec (.addReg dr sr1 sr2) s = .next t ∧
    WroteResult dr (BitVec.ofNat 16 ((s.reg sr1).toNat + (s.reg sr2).toNat)) s t

/-- ADD, immediate form (R121; opcode number D1, log entry 6). -/
def Obligations.AddImmediateForm : Prop :=
  (∀ w : Word, w &&& 0xF020#16 = 0x1020#16 →
    decode w = .addImm (w.extractLsb' 9 3) (w.extractLsb' 6 3) (w.extractLsb' 0 5)) ∧
  ∀ (dr sr1 : RegId) (imm5 : BitVec 5) (s : State), ∃ t, exec (.addImm dr sr1 imm5) s = .next t ∧
    WroteResult dr (s.reg sr1 + imm5.signExtend 16) s t

/-- AND, register form (R122; opcode number D1, log entry 6). -/
def Obligations.AndRegisterForm : Prop :=
  (∀ w : Word, w &&& 0xF020#16 = 0x5000#16 →
    decode w = .andReg (w.extractLsb' 9 3) (w.extractLsb' 6 3) (w.extractLsb' 0 3)) ∧
  ∀ (dr sr1 sr2 : RegId) (s : State), ∃ t, exec (.andReg dr sr1 sr2) s = .next t ∧
    WroteResult dr (s.reg sr1 &&& s.reg sr2) s t

/-- AND, immediate form: the immediate is sign-extended before the AND (R123; opcode number D1, log entry 6). -/
def Obligations.AndImmediateForm : Prop :=
  (∀ w : Word, w &&& 0xF020#16 = 0x5020#16 →
    decode w = .andImm (w.extractLsb' 9 3) (w.extractLsb' 6 3) (w.extractLsb' 0 5)) ∧
  ∀ (dr sr1 : RegId) (imm5 : BitVec 5) (s : State), ∃ t, exec (.andImm dr sr1 imm5) s = .next t ∧
    WroteResult dr (s.reg sr1 &&& imm5.signExtend 16) s t

/-- NOT, for every value of IR[5:0] (R124; D1, D4, log entries 6 and 8). -/
def Obligations.NotInstruction : Prop :=
  (∀ w : Word, w &&& 0xF000#16 = 0x9000#16 → decode w = .not (w.extractLsb' 9 3) (w.extractLsb' 6 3)) ∧
  ∀ (dr sr1 : RegId) (s : State), ∃ t, exec (.not dr sr1) s = .next t ∧ WroteResult dr (~~~(s.reg sr1)) s t

/-! ### Control transfer (43_control.md) -/

/-- BR: taken when the mask is 000 or meets COND bit by bit, any COND, one-hot or not (R140; opcode number
D1 and mask bits D3, log entries 6 and 7). -/
def Obligations.BranchInstruction : Prop :=
  (∀ w : Word, w &&& 0xF000#16 = 0x0000#16 → decode w = .br (w.extractLsb' 9 3) (w.extractLsb' 0 9)) ∧
  ∀ (nzp : Cond) (off : BitVec 9) (s : State), ∃ t, exec (.br nzp off) s = .next t ∧
    Jumped (if nzp = 0#3 ∨ nzp &&& s.cond ≠ 0#3
      then s.pc + 1#16 + off.signExtend 16 else s.pc + 1#16) s t

/-- BR with offset 0 only advances the PC, taken or not; the word 0x0000 is one (R68). -/
def Obligations.BranchOffsetZeroIsNop : Prop :=
  decode 0x0000#16 = .br 0 0 ∧
  ∀ (nzp : Cond) (s : State), ∃ t, exec (.br nzp 0) s = .next t ∧ Jumped (s.pc + 1#16) s t

/-- Masks 000 and 111 differ only when COND is 000: then 000 branches and 111 does not (R70, R140). -/
def Obligations.BranchMasksZeroAndSeven : Prop :=
  ∀ (off : BitVec 9) (s : State),
    (s.cond ≠ 0#3 → exec (.br 7#3 off) s = exec (.br 0#3 off) s) ∧
    (s.cond = 0#3 → exec (.br 7#3 off) s = .next (s.setPc (s.pc + 1#16)) ∧
      exec (.br 0#3 off) s = .next (s.setPc (s.pc + 1#16 + off.signExtend 16)))

/-- JMP, for every value of the ignored bits; RET is JMP R7 (R141, R142; D1, D4, log entries 6 and 8). -/
def Obligations.JumpInstruction : Prop :=
  (∀ w : Word, w &&& 0xF000#16 = 0xC000#16 → decode w = .jmp (w.extractLsb' 6 3)) ∧ decode 0xC1C0#16 = .jmp 7 ∧
  ∀ (baseR : RegId) (s : State), ∃ t, exec (.jmp baseR) s = .next t ∧ Jumped (s.reg baseR) s t

/-- JSR (R145; opcode number D1, log entry 6). -/
def Obligations.CallRelative : Prop :=
  (∀ w : Word, w &&& 0xF800#16 = 0x4800#16 → decode w = .jsr (w.extractLsb' 0 11)) ∧
  ∀ (off : BitVec 11) (s : State), ∃ t, exec (.jsr off) s = .next t ∧
    Called (s.pc + 1#16 + off.signExtend 16) s t ∧ t.pc = t.reg 7#3 + off.signExtend 16

/-- JSRR, for every value of the ignored bits: the base is read after the link is written, so JSRR R7 goes on at the
advanced PC (R147; D1, D4, log entries 6 and 8). -/
def Obligations.CallRegister : Prop :=
  (∀ w : Word, w &&& 0xF800#16 = 0x4000#16 → decode w = .jsrr (w.extractLsb' 6 3)) ∧
  ∀ (baseR : RegId) (s : State), ∃ t, exec (.jsrr baseR) s = .next t ∧
    Called (if baseR = 7#3 then s.pc + 1#16 else s.reg baseR) s t

/-- In JSR and JSRR the write of R7 comes first and a register read for the target comes after it (R146). -/
def Obligations.LinkWrittenBeforeTargetRead : Prop :=
  ∀ s : State,
    (∀ off : BitVec 11, ∃ t, exec (.jsr off) s = .next t ∧ t.reg 7#3 = s.pc + 1#16 ∧
      t.pc = (s.setReg 7#3 (s.pc + 1#16)).reg 7#3 + off.signExtend 16) ∧
    (∀ baseR : RegId, ∃ t, exec (.jsrr baseR) s = .next t ∧ t.reg 7#3 = s.pc + 1#16 ∧
      t.pc = (s.setReg 7#3 (s.pc + 1#16)).reg baseR)

/-! ### Loads, LEA and stores (44_loadstore.md) -/

/-- LD (R160; opcode number D1, log entry 6). -/
def Obligations.LoadInstruction : Prop :=
  (∀ w : Word, w &&& 0xF000#16 = 0x2000#16 → decode w = .ld (w.extractLsb' 9 3) (w.extractLsb' 0 9)) ∧
  ∀ (dr : RegId) (off : BitVec 9) (s : State), ∃ t, exec (.ld dr off) s = .next t ∧
    WroteResult dr (s.load (s.pc + 1#16 + off.signExtend 16)) s t

/-- LDI: the word at the pointer, with its flags (R161; opcode number D1, log entry 6). -/
def Obligations.LoadIndirect : Prop :=
  (∀ w : Word, w &&& 0xF000#16 = 0xA000#16 → decode w = .ldi (w.extractLsb' 9 3) (w.extractLsb' 0 9)) ∧
  ∀ (dr : RegId) (off : BitVec 9) (s : State), ∃ t, exec (.ldi dr off) s = .next t ∧
    WroteResult dr (s.load (s.load (s.pc + 1#16 + off.signExtend 16))) s t

/-- LDR (R162; opcode number D1, log entry 6). -/
def Obligations.LoadBaseOffset : Prop :=
  (∀ w : Word, w &&& 0xF000#16 = 0x6000#16 →
    decode w = .ldr (w.extractLsb' 9 3) (w.extractLsb' 6 3) (w.extractLsb' 0 6)) ∧
  ∀ (dr baseR : RegId) (off : BitVec 6) (s : State), ∃ t, exec (.ldr dr baseR off) s = .next t ∧
    WroteResult dr (s.load (s.reg baseR + off.signExtend 16)) s t

/-- LEA: the address itself, with its flags, and no memory access (R163; opcode number D1, log entry 6). -/
def Obligations.LoadEffectiveAddress : Prop :=
  (∀ w : Word, w &&& 0xF000#16 = 0xE000#16 → decode w = .lea (w.extractLsb' 9 3) (w.extractLsb' 0 9)) ∧
  ∀ (dr : RegId) (off : BitVec 9) (s : State), ∃ t, exec (.lea dr off) s = .next t ∧
    WroteResult dr (s.pc + 1#16 + off.signExtend 16) s t

/-- ST (R164; opcode number D1, log entry 6). -/
def Obligations.StoreInstruction : Prop :=
  (∀ w : Word, w &&& 0xF000#16 = 0x3000#16 → decode w = .st (w.extractLsb' 9 3) (w.extractLsb' 0 9)) ∧
  ∀ (sr : RegId) (off : BitVec 9) (s : State), s.advance.pcRelative off = s.pc + 1#16 + off.signExtend 16 ∧
    ∃ t, exec (.st sr off) s = .next t ∧ Stored (s.advance.pcRelative off) (s.reg sr) s t

/-- STI (R165; opcode number D1, log entry 6). -/
def Obligations.StoreIndirect : Prop :=
  (∀ w : Word, w &&& 0xF000#16 = 0xB000#16 → decode w = .sti (w.extractLsb' 9 3) (w.extractLsb' 0 9)) ∧
  ∀ (sr : RegId) (off : BitVec 9) (s : State), s.advance.indirect off = s.load (s.pc + 1#16 + off.signExtend 16) ∧
    ∃ t, exec (.sti sr off) s = .next t ∧ Stored (s.advance.indirect off) (s.reg sr) s t

/-- STR (R166; opcode number D1, log entry 6). -/
def Obligations.StoreBaseOffset : Prop :=
  (∀ w : Word, w &&& 0xF000#16 = 0x7000#16 →
    decode w = .str (w.extractLsb' 9 3) (w.extractLsb' 6 3) (w.extractLsb' 0 6)) ∧
  ∀ (sr baseR : RegId) (off : BitVec 6) (s : State), s.advance.baseOffset baseR off = s.reg baseR + off.signExtend 16 ∧
    ∃ t, exec (.str sr baseR off) s = .next t ∧ Stored (s.advance.baseOffset baseR off) (s.reg sr) s t

/-- The family's flags: the loads and LEA set COND from the word they write, the stores never change it, and none writes
the PC, which only advances (R168). -/
def Obligations.LoadStoreFamilyFlags : Prop :=
  ∀ s : State,
    (∀ (i : Instr) (dr : RegId),
      ((∃ off, i = .ld dr off) ∨ (∃ off, i = .ldi dr off) ∨ (∃ b off, i = .ldr dr b off) ∨ (∃ off, i = .lea dr off)) →
      ∃ t, exec i s = .next t ∧ t.cond = flagOf (t.reg dr) ∧ t.pc = s.advance.pc) ∧
    (∀ (i : Instr) (sr : RegId),
      ((∃ off, i = .st sr off) ∨ (∃ off, i = .sti sr off) ∨ (∃ b off, i = .str sr b off)) →
      ∃ t, exec i s = .next t ∧ t.cond = s.cond ∧ t.pc = s.advance.pc)

/-! ### TRAP and the reserved opcodes (45_trap_reserved.md, 60_exceptions.md) -/

/-- A TRAP step is the dispatcher's reply to the state with the advanced PC and the whole word: Continue goes on with the
state the service left, Halt ends the run with it, no result is stuck (R180 to R183, T10). The reply is the one the state
holds or else the free Config.trapReply (log entry 9); Halt as a fault constructor is the model's (log entry 10). -/
def Obligations.TrapStepIsTheReply : Prop :=
  ∀ s : State, s.nextOpcode = 0xF#4 →
    step s = match s.advance.nextTrapReply s.fetch with
      | .returns writes .goOn => .next (s.advance.countTrap.applyWrites writes)
      | .returns writes .halt => .fault (.halt (s.advance.countTrap.applyWrites writes))
      | .noResult => .fault (.trapStuck s.fetch s.advance)

/-- TRAP completes when the next reply is Continue: what the service wrote is written, and what it did not write is as
before, the PC advanced; the engine itself writes no R7 and no COND (R180, R204, R206). -/
def Obligations.TrapContinues : Prop :=
  ∀ (high4 : BitVec 4) (vec : BitVec 8) (s : State) (writes : List StoreWrite) (rest : List TrapReply),
    s.trapReplies = .returns writes .goOn :: rest →
    ∃ t, exec (.trap high4 vec) s = .next t ∧ t = s.advance.countTrap.applyWrites writes ∧
      (∀ r, (∀ v, .reg r v ∉ writes) → t.reg r = s.reg r) ∧
      ((∀ v, .pc v ∉ writes) → t.pc = s.pc + 1#16) ∧
      ((∀ f, .cond f ∉ writes) → t.cond = s.cond) ∧
      (∀ a, (∀ v, .mem a v ∉ writes) → t.load a = s.load a) ∧
      t.trapReplies = rest ∧ t.trapDraws = s.trapDraws + 1

/-- TRAP ends the run when the next reply is Halt, with the state the service left (R183). -/
def Obligations.TrapHalts : Prop :=
  ∀ (high4 : BitVec 4) (vec : BitVec 8) (s : State) (writes : List StoreWrite) (rest : List TrapReply),
    s.trapReplies = .returns writes .halt :: rest →
    exec (.trap high4 vec) s = .fault (.halt (s.advance.countTrap.applyWrites writes))

/-- TRAP is stuck when the service gives no result (R181 c; log entry 12). -/
def Obligations.TrapWithoutResultIsStuck : Prop :=
  ∀ (high4 : BitVec 4) (vec : BitVec 8) (s : State) (rest : List TrapReply),
    s.trapReplies = .noResult :: rest →
    exec (.trap high4 vec) s = .fault (.trapStuck (0xF000#16 ||| high4.setWidth 16 <<< 8 ||| vec.setWidth 16) s.advance)

/-- The service may leave any registers, PC, COND and memory: for every target there is a reply that leads to it
(R181 a, b). -/
def Obligations.TrapServiceReachesEveryState : Prop :=
  ∀ s target : State, ∃ writes, ∀ (high4 : BitVec 4) (vec : BitVec 8) (rest : List TrapReply),
    ∃ t, exec (.trap high4 vec) { s with trapReplies := .returns writes .goOn :: rest } = .next t ∧ SameArch target t

/-- Executing a reserved opcode is the engine fault with the record of the word and the state before the step, the PC not
advanced, for every value of the low 12 bits (R185, R186, R205; the record is the spec's decision D9, log entry 11). -/
def Obligations.ReservedOpcodesFault : Prop :=
  ∀ (low12 : BitVec 12) (s : State),
    exec (.reserved8 low12) s =
      .fault (.engineFault { pc := s.pc, word := 0x8000#16 + low12.setWidth 16, opcode := 0x8#4 } s) ∧
    exec (.reservedD low12) s =
      .fault (.engineFault { pc := s.pc, word := 0xD000#16 + low12.setWidth 16, opcode := 0xD#4 } s)

/-- The engine fault is raised exactly by fetching a reserved opcode, and its record and state are those of the step
(R185, R186, R200, R201; D9, log entry 11). -/
def Obligations.EngineFaultExactlyOnReserved : Prop :=
  ∀ (s final : State) (info : FaultInfo),
    step s = .fault (.engineFault info final) ↔
      reservedOpcode s.nextOpcode = true ∧ final = s ∧ info = { pc := s.pc, word := s.fetch, opcode := s.nextOpcode }

/-- Only TRAP halts or is stuck (R183, R212). -/
def Obligations.OnlyTrapHaltsOrSticks : Prop :=
  ∀ s : State, s.nextOpcode ≠ 0xF#4 →
    (∀ f, step s ≠ .fault (.halt f)) ∧ (∀ w f, step s ≠ .fault (.trapStuck w f))

/-! ### The run (41_cycle.md R110, 60_exceptions.md R213) -/

/-- Where a run ends (R110, R183, R213). It halts with a final state exactly when fewer completed steps lead to a TRAP whose
reply is Halt, and the final state is the one the service left; so what has halted stays halted with the same state. And when
fewer completed steps lead to a reserved word, it ends with the engine fault in the state it stands in. Replies as writes and
Halt as a fault constructor are the model's (log entries 9 and 10), the opcode numbers D1, D2 and the record D9 the spec's
decisions (log entries 6 and 11). -/
def Obligations.RunEndsAtHaltReplyOrReservedWord : Prop :=
  ∀ (n : Nat) (s final : State),
    (HaltsWith n s final ↔ ∃ k last writes, k < n ∧ Sys2Proof.core.run k s = .next last ∧ last.nextOpcode = 0xF#4 ∧
      last.advance.nextTrapReply last.fetch = .returns writes .halt ∧ final = last.advance.countTrap.applyWrites writes) ∧
    (∀ k, k < n → Sys2Proof.core.run k s = .next final → reservedOpcode final.nextOpcode = true →
      FaultsWith n s { pc := final.pc, word := final.fetch, opcode := final.nextOpcode } final)

/-- A run that ends with the engine fault reached its last state by steps that completed, and stands at a reserved word
there with the PC on it (R205: the state is exactly that after the last completed instruction; R213). -/
def Obligations.FaultedRunStandsAtReservedWord : Prop :=
  ∀ (n : Nat) (s final : State) (info : FaultInfo), FaultsWith n s info final →
    (∃ k, k < n ∧ Sys2Proof.core.run k s = .next final) ∧ reservedOpcode final.nextOpcode = true ∧
    info = { pc := final.pc, word := final.fetch, opcode := final.nextOpcode }
end

