-- ==== Sys2Proof/Laws/Bits.lean ====
section
/-! SUPPORT. The primitives and the operand forms in terms of the library's bit-vector operations. -/

namespace Sys2Proof

open Bits

theorem Bits.getLsbD_mask (width i : Nat) (h : width ≤ 16) :
    ((1#16 <<< width) - 1#16).getLsbD i = decide (i < width) := by
  by_cases hi : i < 16
  · have key : ∀ k : Fin 17, ∀ j : Fin 16, ((1#16 <<< k.val) - 1#16).getLsbD j.val = decide (j.val < k.val) := by decide
    exact key ⟨width, by omega⟩ ⟨i, hi⟩
  · rw [BitVec.getLsbD_of_ge _ _ (by omega)]
    simp; omega

/-- getBits is the library's bit-field extraction, zero-extended. -/
theorem Bits.getBits_eq_extract (w : Word) (start width : Nat) (h : 1 ≤ width ∧ start + width ≤ 16) :
    getBits w start width h = (w.extractLsb' start width).setWidth 16 := by
  apply BitVec.eq_of_getLsbD_eq
  intro i hi
  rw [getBits, BitVec.getLsbD_and, getLsbD_mask width i (by omega)]
  simp [hi, BitVec.getLsbD_extractLsb', Bool.and_comm]

theorem Bits.setWidth_getBits (w : Word) (start width : Nat) (h : 1 ≤ width ∧ start + width ≤ 16) :
    (getBits w start width h).setWidth width = w.extractLsb' start width := by
  rw [getBits_eq_extract, BitVec.setWidth_setWidth_of_le _ (by omega), BitVec.setWidth_eq]

@[simp] theorem opcodeField_eq (w : Word) : opcodeField w = w.extractLsb' 12 4 := setWidth_getBits _ _ _ _
@[simp] theorem field11to9_eq (w : Word) : field11to9 w = w.extractLsb' 9 3 := setWidth_getBits _ _ _ _
@[simp] theorem field8to6_eq (w : Word) : field8to6 w = w.extractLsb' 6 3 := setWidth_getBits _ _ _ _
@[simp] theorem field2to0_eq (w : Word) : field2to0 w = w.extractLsb' 0 3 := setWidth_getBits _ _ _ _
@[simp] theorem imm5Field_eq (w : Word) : imm5Field w = w.extractLsb' 0 5 := setWidth_getBits _ _ _ _
@[simp] theorem offset6Field_eq (w : Word) : offset6Field w = w.extractLsb' 0 6 := setWidth_getBits _ _ _ _
@[simp] theorem pcOffset9Field_eq (w : Word) : pcOffset9Field w = w.extractLsb' 0 9 := setWidth_getBits _ _ _ _
@[simp] theorem pcOffset11Field_eq (w : Word) : pcOffset11Field w = w.extractLsb' 0 11 := setWidth_getBits _ _ _ _
@[simp] theorem trapvect8Field_eq (w : Word) : trapvect8Field w = w.extractLsb' 0 8 := setWidth_getBits _ _ _ _
@[simp] theorem high4Field_eq (w : Word) : high4Field w = w.extractLsb' 8 4 := setWidth_getBits _ _ _ _
@[simp] theorem low12Field_eq (w : Word) : low12Field w = w.extractLsb' 0 12 := setWidth_getBits _ _ _ _

/-- getBit is bit `n` as a word. -/
theorem Bits.getBit_eq (w : Word) (n : Nat) (h : n ≤ 15) : getBit w n h = if w.getLsbD n then 1#16 else 0#16 := by
  apply BitVec.eq_of_getLsbD_eq
  intro i hi
  unfold getBit
  by_cases hz : i = 0 <;> by_cases hb : w.getLsbD n = true <;> simp_all

/-- signExtend is the library's sign extension of the low `k` bits. -/
theorem Bits.signExtend_eq (v : Word) (k : Nat) (h : 1 ≤ k ∧ k ≤ 16) :
    signExtend v k h = (v.setWidth k).signExtend 16 := by
  apply BitVec.eq_of_getLsbD_eq
  intro i hi
  rw [signExtend, BitVec.getLsbD_sshiftRight, BitVec.getLsbD_signExtend, BitVec.msb_eq_getLsbD_last,
    BitVec.msb_eq_getLsbD_last]
  simp only [BitVec.getLsbD_shiftLeft, BitVec.getLsbD_setWidth]
  by_cases hik : i < k
  · have h1 : 16 - k + i < 16 := by omega
    have h2 : 16 - k + i - (16 - k) = i := by omega
    simp [hik, hi, h1, h2, show ¬ 16 ≤ i by omega]
  · have h1 : ¬ 16 - k + i < 16 := by omega
    have h2 : 16 - 1 - (16 - k) = k - 1 := by omega
    simp [hik, hi, h1, h2, show ¬ 16 ≤ i by omega, show 16 - k ≤ 15 by omega, show k - 1 < k by omega]

namespace Machine

/-- The immediates are the fields, sign-extended. -/
@[simp] theorem immWord_eq (i : BitVec 5) : immWord i = i.signExtend 16 := by
  rw [immWord, Bits.signExtend_eq, BitVec.setWidth_setWidth_of_le _ (by omega), BitVec.setWidth_eq]
@[simp] theorem offset6Word_eq (i : BitVec 6) : offset6Word i = i.signExtend 16 := by
  rw [offset6Word, Bits.signExtend_eq, BitVec.setWidth_setWidth_of_le _ (by omega), BitVec.setWidth_eq]
@[simp] theorem offset9Word_eq (i : BitVec 9) : offset9Word i = i.signExtend 16 := by
  rw [offset9Word, Bits.signExtend_eq, BitVec.setWidth_setWidth_of_le _ (by omega), BitVec.setWidth_eq]
@[simp] theorem offset11Word_eq (i : BitVec 11) : offset11Word i = i.signExtend 16 := by
  rw [offset11Word, Bits.signExtend_eq, BitVec.setWidth_setWidth_of_le _ (by omega), BitVec.setWidth_eq]

end Machine
end Sys2Proof
end

