-- ==== Sys2Proof/Laws/Decode.lean ====
section
/-! SUPPORT. The decoder by opcode: what a word with a given IR[15:12] decodes to, in terms of the library's fields. -/

namespace Sys2Proof

/-- The two writings of the opcode map agree. -/
theorem opcodeMap_code (o : Opcode) : opcodeMap[o.code.toNat]'(o.code.isLt) = o := by
  cases o <;> decide

/-- A word with an opcode's number has that opcode. -/
theorem opcodeOf_eq (w : Word) (o : Opcode) (h : w.extractLsb' 12 4 = o.code) : opcodeOf w = o := by
  have hc := opcodeMap_code o
  simp only [opcodeOf, opcodeField_eq, h]
  exact hc

/-- Every word has one of the 16 opcodes. -/
theorem opcode_cases (w : Word) : ∃ o : Opcode, w.extractLsb' 12 4 = o.code := by
  have key : ∀ x : BitVec 4, ∃ o : Opcode, x = o.code := by
    intro x
    exact ⟨opcodeMap[x.toNat]'(x.isLt), by revert x; decide⟩
  exact key _

/-- The single bit getBit tests. -/
theorem getBit_eq_one_iff (w : Word) (n : Nat) (h : n ≤ 15) : Bits.getBit w n h = 1#16 ↔ w.getLsbD n = true := by
  rw [Bits.getBit_eq]; split <;> simp_all

theorem getBit_eq_zero_iff (w : Word) (n : Nat) (h : n ≤ 15) : Bits.getBit w n h = 0#16 ↔ w.getLsbD n = false := by
  rw [Bits.getBit_eq]; split <;> simp_all

section
variable (w : Word)

theorem decode_br (h : w.extractLsb' 12 4 = 0x0#4) : decode w = .br (w.extractLsb' 9 3) (w.extractLsb' 0 9) := by
  simp [decode, opcodeOf_eq w .br h]
theorem decode_add_reg (h : w.extractLsb' 12 4 = 0x1#4) (h5 : w.getLsbD 5 = false) :
    decode w = .addReg (w.extractLsb' 9 3) (w.extractLsb' 6 3) (w.extractLsb' 0 3) := by
  simp [decode, opcodeOf_eq w .add h, decodeAdd, (getBit_eq_zero_iff w 5 (by decide)).2 h5]
theorem decode_add_imm (h : w.extractLsb' 12 4 = 0x1#4) (h5 : w.getLsbD 5 = true) :
    decode w = .addImm (w.extractLsb' 9 3) (w.extractLsb' 6 3) (w.extractLsb' 0 5) := by
  simp [decode, opcodeOf_eq w .add h, decodeAdd, getBit_eq_zero_iff, h5]
theorem decode_ld (h : w.extractLsb' 12 4 = 0x2#4) : decode w = .ld (w.extractLsb' 9 3) (w.extractLsb' 0 9) := by
  simp [decode, opcodeOf_eq w .ld h]
theorem decode_st (h : w.extractLsb' 12 4 = 0x3#4) : decode w = .st (w.extractLsb' 9 3) (w.extractLsb' 0 9) := by
  simp [decode, opcodeOf_eq w .st h]
theorem decode_jsr (h : w.extractLsb' 12 4 = 0x4#4) (h11 : w.getLsbD 11 = true) :
    decode w = .jsr (w.extractLsb' 0 11) := by
  simp [decode, opcodeOf_eq w .jsr h, decodeJsr, getBit_eq_one_iff, h11]
theorem decode_jsrr (h : w.extractLsb' 12 4 = 0x4#4) (h11 : w.getLsbD 11 = false) :
    decode w = .jsrr (w.extractLsb' 6 3) := by
  have hb : Bits.getBit w 11 ≠ 1#16 := by rw [Ne, getBit_eq_one_iff, h11]; simp
  simp [decode, opcodeOf_eq w .jsr h, decodeJsr, hb]
theorem decode_and_reg (h : w.extractLsb' 12 4 = 0x5#4) (h5 : w.getLsbD 5 = false) :
    decode w = .andReg (w.extractLsb' 9 3) (w.extractLsb' 6 3) (w.extractLsb' 0 3) := by
  simp [decode, opcodeOf_eq w .and h, decodeAnd, (getBit_eq_zero_iff w 5 (by decide)).2 h5]
theorem decode_and_imm (h : w.extractLsb' 12 4 = 0x5#4) (h5 : w.getLsbD 5 = true) :
    decode w = .andImm (w.extractLsb' 9 3) (w.extractLsb' 6 3) (w.extractLsb' 0 5) := by
  simp [decode, opcodeOf_eq w .and h, decodeAnd, getBit_eq_zero_iff, h5]
theorem decode_ldr (h : w.extractLsb' 12 4 = 0x6#4) :
    decode w = .ldr (w.extractLsb' 9 3) (w.extractLsb' 6 3) (w.extractLsb' 0 6) := by
  simp [decode, opcodeOf_eq w .ldr h]
theorem decode_str (h : w.extractLsb' 12 4 = 0x7#4) :
    decode w = .str (w.extractLsb' 9 3) (w.extractLsb' 6 3) (w.extractLsb' 0 6) := by
  simp [decode, opcodeOf_eq w .str h]
theorem decode_reserved8 (h : w.extractLsb' 12 4 = 0x8#4) : decode w = .reserved8 (w.extractLsb' 0 12) := by
  simp [decode, opcodeOf_eq w .reserved8 h]
theorem decode_not (h : w.extractLsb' 12 4 = 0x9#4) : decode w = .not (w.extractLsb' 9 3) (w.extractLsb' 6 3) := by
  simp [decode, opcodeOf_eq w .not h]
theorem decode_ldi (h : w.extractLsb' 12 4 = 0xA#4) : decode w = .ldi (w.extractLsb' 9 3) (w.extractLsb' 0 9) := by
  simp [decode, opcodeOf_eq w .ldi h]
theorem decode_sti (h : w.extractLsb' 12 4 = 0xB#4) : decode w = .sti (w.extractLsb' 9 3) (w.extractLsb' 0 9) := by
  simp [decode, opcodeOf_eq w .sti h]
theorem decode_jmp (h : w.extractLsb' 12 4 = 0xC#4) : decode w = .jmp (w.extractLsb' 6 3) := by
  simp [decode, opcodeOf_eq w .jmp h]
theorem decode_reservedD (h : w.extractLsb' 12 4 = 0xD#4) : decode w = .reservedD (w.extractLsb' 0 12) := by
  simp [decode, opcodeOf_eq w .reservedD h]
theorem decode_lea (h : w.extractLsb' 12 4 = 0xE#4) : decode w = .lea (w.extractLsb' 9 3) (w.extractLsb' 0 9) := by
  simp [decode, opcodeOf_eq w .lea h]
theorem decode_trap (h : w.extractLsb' 12 4 = 0xF#4) : decode w = .trap (w.extractLsb' 8 4) (w.extractLsb' 0 8) := by
  simp [decode, opcodeOf_eq w .trap h]

end

/-- Every word has one of the 19 shapes, by its opcode and, for 0x1, 0x4 and 0x5, one further bit (R69). -/
theorem decode_cases (w : Word) :
    (w.extractLsb' 12 4 = 0#4 ∧ decode w = .br (w.extractLsb' 9 3) (w.extractLsb' 0 9)) ∨
    (w.extractLsb' 12 4 = 1#4 ∧ w.getLsbD 5 = false ∧
      decode w = .addReg (w.extractLsb' 9 3) (w.extractLsb' 6 3) (w.extractLsb' 0 3)) ∨
    (w.extractLsb' 12 4 = 1#4 ∧ w.getLsbD 5 = true ∧
      decode w = .addImm (w.extractLsb' 9 3) (w.extractLsb' 6 3) (w.extractLsb' 0 5)) ∨
    (w.extractLsb' 12 4 = 2#4 ∧ decode w = .ld (w.extractLsb' 9 3) (w.extractLsb' 0 9)) ∨
    (w.extractLsb' 12 4 = 3#4 ∧ decode w = .st (w.extractLsb' 9 3) (w.extractLsb' 0 9)) ∨
    (w.extractLsb' 12 4 = 4#4 ∧ w.getLsbD 11 = true ∧ decode w = .jsr (w.extractLsb' 0 11)) ∨
    (w.extractLsb' 12 4 = 4#4 ∧ w.getLsbD 11 = false ∧ decode w = .jsrr (w.extractLsb' 6 3)) ∨
    (w.extractLsb' 12 4 = 5#4 ∧ w.getLsbD 5 = false ∧
      decode w = .andReg (w.extractLsb' 9 3) (w.extractLsb' 6 3) (w.extractLsb' 0 3)) ∨
    (w.extractLsb' 12 4 = 5#4 ∧ w.getLsbD 5 = true ∧
      decode w = .andImm (w.extractLsb' 9 3) (w.extractLsb' 6 3) (w.extractLsb' 0 5)) ∨
    (w.extractLsb' 12 4 = 6#4 ∧ decode w = .ldr (w.extractLsb' 9 3) (w.extractLsb' 6 3) (w.extractLsb' 0 6)) ∨
    (w.extractLsb' 12 4 = 7#4 ∧ decode w = .str (w.extractLsb' 9 3) (w.extractLsb' 6 3) (w.extractLsb' 0 6)) ∨
    (w.extractLsb' 12 4 = 8#4 ∧ decode w = .reserved8 (w.extractLsb' 0 12)) ∨
    (w.extractLsb' 12 4 = 9#4 ∧ decode w = .not (w.extractLsb' 9 3) (w.extractLsb' 6 3)) ∨
    (w.extractLsb' 12 4 = 10#4 ∧ decode w = .ldi (w.extractLsb' 9 3) (w.extractLsb' 0 9)) ∨
    (w.extractLsb' 12 4 = 11#4 ∧ decode w = .sti (w.extractLsb' 9 3) (w.extractLsb' 0 9)) ∨
    (w.extractLsb' 12 4 = 12#4 ∧ decode w = .jmp (w.extractLsb' 6 3)) ∨
    (w.extractLsb' 12 4 = 13#4 ∧ decode w = .reservedD (w.extractLsb' 0 12)) ∨
    (w.extractLsb' 12 4 = 14#4 ∧ decode w = .lea (w.extractLsb' 9 3) (w.extractLsb' 0 9)) ∨
    (w.extractLsb' 12 4 = 15#4 ∧ decode w = .trap (w.extractLsb' 8 4) (w.extractLsb' 0 8)) := by
  obtain ⟨o, ho⟩ := opcode_cases w
  cases h5 : w.getLsbD 5 <;> cases h11 : w.getLsbD 11 <;> cases o <;>
    simp only [Opcode.code] at ho <;> simp only [ho] <;>
    simp [ho, h5, h11, decode_br, decode_add_imm, decode_ld, decode_st, decode_jsr, decode_and_imm, decode_ldr,
      decode_str, decode_reserved8, decode_not, decode_ldi, decode_sti, decode_jmp, decode_reservedD, decode_lea,
      decode_trap]
  all_goals first | exact decode_add_reg w ho h5 | exact decode_and_reg w ho h5 | exact decode_jsrr w ho h11

end Sys2Proof
end

