-- ==== Sys2Proof/Laws/Memory.lean ====
section
/-! SUPPORT. Memory: a read after a write, and that every memory operation keeps the canonical form. -/

namespace Sys2Proof.Machine

theorem cellsRead_place_same (cells : List Cell) (a : Nat) (v : Word)
    (h : ∀ c ∈ cells, c.1 ≠ a) : cellsRead (cellsPlace cells a v) a = v := by
  induction cells with
  | nil => simp [cellsPlace, cellsRead]
  | cons c rest ih =>
    have hc : c.1 ≠ a := h c (by simp)
    have hr : ∀ d ∈ rest, d.1 ≠ a := fun d hd => h d (by simp [hd])
    unfold cellsPlace
    split
    · simp [cellsRead]
    · simp [cellsRead, hc, ih hr]

theorem cellsRead_place_other (cells : List Cell) (a b : Nat) (v : Word) (h : b ≠ a) :
    cellsRead (cellsPlace cells a v) b = cellsRead cells b := by
  induction cells with
  | nil => simp [cellsPlace, cellsRead, Ne.symm h]
  | cons c rest ih =>
    unfold cellsPlace
    split
    · simp [cellsRead, Ne.symm h]
    · simp [cellsRead, ih]

theorem cellsRead_filter_other (cells : List Cell) (a b : Nat) (h : b ≠ a) :
    cellsRead (cells.filter (fun c => c.1 != a)) b = cellsRead cells b := by
  induction cells with
  | nil => rfl
  | cons c rest ih =>
    by_cases hc : c.1 = a
    · simp [cellsRead, hc, ih, Ne.symm h]
    · simp [cellsRead, hc, ih]

theorem cellsRead_filter_same (cells : List Cell) (a : Nat) :
    cellsRead (cells.filter (fun c => c.1 != a)) a = Memory.unlisted := by
  induction cells with
  | nil => rfl
  | cons c rest ih =>
    by_cases hc : c.1 = a
    · simp [hc, ih]
    · simp [cellsRead, hc, ih]

/-- A read at the address written gives the word written, in any memory, canonical or not. -/
@[simp] theorem Memory.read_write_same (m : Memory) (a v : Word) : (m.write a v).read a = v := by
  unfold Memory.write Memory.read
  by_cases hv : v = Memory.unlisted
  · simp [hv, cellsRead_filter_same]
  · simp only [hv, if_false]
    exact cellsRead_place_same _ _ _ (fun c hc => by simpa using (List.mem_filter.mp hc).2)

/-- A write leaves every other address alone, in any memory. -/
theorem Memory.read_write_other (m : Memory) (a b v : Word) (h : b ≠ a) : (m.write a v).read b = m.read b := by
  have hn : b.toNat ≠ a.toNat := fun e => h (BitVec.eq_of_toNat_eq e)
  unfold Memory.write Memory.read
  by_cases hv : v = Memory.unlisted
  · simp [hv, cellsRead_filter_other _ _ _ hn]
  · simp [hv, cellsRead_place_other _ _ _ _ hn, cellsRead_filter_other _ _ _ hn]

theorem cellsWf_mono (cells : List Cell) (lo lo' : Nat) (hle : lo' ≤ lo) (h : cellsWf lo cells = true) :
    cellsWf lo' cells = true := by
  cases cells with
  | nil => rfl
  | cons c rest =>
    simp only [cellsWf, Bool.and_eq_true, decide_eq_true_eq] at h ⊢
    exact ⟨⟨⟨by omega, h.1.1.2⟩, h.1.2⟩, h.2⟩

theorem cellsWf_filter (p : Cell → Bool) (cells : List Cell) (lo : Nat) (h : cellsWf lo cells = true) :
    cellsWf lo (cells.filter p) = true := by
  induction cells generalizing lo with
  | nil => rfl
  | cons c rest ih =>
    simp only [cellsWf, Bool.and_eq_true, decide_eq_true_eq] at h
    by_cases hp : p c = true
    · simp only [List.filter_cons, hp, if_true, cellsWf, Bool.and_eq_true, decide_eq_true_eq]
      exact ⟨h.1, ih _ h.2⟩
    · simp only [List.filter_cons, hp]
      exact cellsWf_mono _ _ _ (by omega) (ih _ h.2)

theorem cellsWf_place (cells : List Cell) (lo a : Nat) (v : Word) (h : cellsWf lo cells = true)
    (hlo : lo ≤ a) (ha : a < wordCount) (hv : v ≠ Memory.unlisted) (hne : ∀ c ∈ cells, c.1 ≠ a) :
    cellsWf lo (cellsPlace cells a v) = true := by
  induction cells generalizing lo with
  | nil => simp [cellsPlace, cellsWf, hlo, ha, hv]
  | cons c rest ih =>
    have hc : c.1 ≠ a := hne c (by simp)
    have hr : ∀ d ∈ rest, d.1 ≠ a := fun d hd => hne d (by simp [hd])
    simp only [cellsWf, Bool.and_eq_true, decide_eq_true_eq] at h
    unfold cellsPlace
    split
    · simp only [cellsWf, Bool.and_eq_true, decide_eq_true_eq]
      exact ⟨⟨⟨hlo, ha⟩, by simpa using hv⟩, ⟨⟨by omega, h.1.1.2⟩, h.1.2⟩, h.2⟩
    · simp only [cellsWf, Bool.and_eq_true, decide_eq_true_eq]
      exact ⟨h.1, ih _ h.2 (by omega) hr⟩

/-- A write keeps the canonical form. -/
theorem Memory.wf_write (m : Memory) (a v : Word) (h : m.wf = true) : (m.write a v).wf = true := by
  have hf : cellsWf 0 (m.cells.filter (fun c => c.1 != a.toNat)) = true := cellsWf_filter _ _ _ h
  unfold Memory.write Memory.wf
  by_cases hv : v = Memory.unlisted
  · simpa [hv] using hf
  · simp only [hv, if_false]
    exact cellsWf_place _ _ _ _ hf (Nat.zero_le _) a.isLt hv
      (fun c hc => by simpa using (List.mem_filter.mp hc).2)

/-- The reset memory is canonical. -/
theorem Memory.wf_reset : State.reset.mem.wf = true := rfl

/-- A read of an empty memory gives the unlisted word. -/
@[simp] theorem Memory.read_nil (a : Word) : (Memory.mk []).read a = Memory.unlisted := rfl

@[simp] theorem load_store_same (s : State) (a v : Word) : (s.store a v).load a = v := Memory.read_write_same _ _ _

theorem load_store_other (s : State) (a b v : Word) (h : b ≠ a) : (s.store a v).load b = s.load b :=
  Memory.read_write_other _ _ _ _ h

/-- One write of the dispatcher keeps the canonical form. -/
theorem applyWrite_wf (s : State) (w : StoreWrite) (h : s.mem.wf = true) : (s.applyWrite w).mem.wf = true := by
  cases w with
  | reg i v => exact h
  | pc t => exact h
  | cond f => exact h
  | mem a v => exact Memory.wf_write _ _ _ h

/-- The dispatcher's writes keep the canonical form. -/
theorem applyWrites_wf (s : State) (ws : List StoreWrite) (h : s.mem.wf = true) : (s.applyWrites ws).mem.wf = true := by
  induction ws generalizing s with
  | nil => exact h
  | cons w rest ih => exact ih (s.applyWrite w) (applyWrite_wf s w h)

@[simp] theorem applyWrites_nil (s : State) : s.applyWrites [] = s := rfl

theorem applyWrites_cons (s : State) (w : StoreWrite) (ws : List StoreWrite) :
    s.applyWrites (w :: ws) = (s.applyWrite w).applyWrites ws := rfl

theorem applyWrites_append (s : State) (ws vs : List StoreWrite) :
    s.applyWrites (ws ++ vs) = (s.applyWrites ws).applyWrites vs := List.foldl_append ..

end Sys2Proof.Machine
end

