-- ==== Sys2Proof/Laws/State.lean ====
section
/-! SUPPORT. One lemma per field per update of State, so that no later proof unfolds a record update, and the register
accessors' read-after-write laws. -/

namespace Sys2Proof.Machine

variable (s : State) (i j : RegId) (v a : Word) (f : Cond)

@[simp] theorem setReg_regs : (s.setReg i v).regs = s.regs.set i.toNat v i.isLt := rfl
@[simp] theorem setReg_pc : (s.setReg i v).pc = s.pc := rfl
@[simp] theorem setReg_cond : (s.setReg i v).cond = s.cond := rfl
@[simp] theorem setReg_mem : (s.setReg i v).mem = s.mem := rfl
@[simp] theorem setReg_trapReplies : (s.setReg i v).trapReplies = s.trapReplies := rfl
@[simp] theorem setReg_trapDraws : (s.setReg i v).trapDraws = s.trapDraws := rfl

@[simp] theorem setPc_regs : (s.setPc v).regs = s.regs := rfl
@[simp] theorem setPc_pc : (s.setPc v).pc = v := rfl
@[simp] theorem setPc_cond : (s.setPc v).cond = s.cond := rfl
@[simp] theorem setPc_mem : (s.setPc v).mem = s.mem := rfl
@[simp] theorem setPc_trapReplies : (s.setPc v).trapReplies = s.trapReplies := rfl
@[simp] theorem setPc_trapDraws : (s.setPc v).trapDraws = s.trapDraws := rfl

@[simp] theorem setCond_regs : (s.setCond f).regs = s.regs := rfl
@[simp] theorem setCond_pc : (s.setCond f).pc = s.pc := rfl
@[simp] theorem setCond_cond : (s.setCond f).cond = f := rfl
@[simp] theorem setCond_mem : (s.setCond f).mem = s.mem := rfl
@[simp] theorem setCond_trapReplies : (s.setCond f).trapReplies = s.trapReplies := rfl
@[simp] theorem setCond_trapDraws : (s.setCond f).trapDraws = s.trapDraws := rfl

@[simp] theorem store_regs : (s.store a v).regs = s.regs := rfl
@[simp] theorem store_pc : (s.store a v).pc = s.pc := rfl
@[simp] theorem store_cond : (s.store a v).cond = s.cond := rfl
@[simp] theorem store_mem : (s.store a v).mem = s.mem.write a v := rfl
@[simp] theorem store_trapReplies : (s.store a v).trapReplies = s.trapReplies := rfl
@[simp] theorem store_trapDraws : (s.store a v).trapDraws = s.trapDraws := rfl

@[simp] theorem countTrap_regs : s.countTrap.regs = s.regs := rfl
@[simp] theorem countTrap_pc : s.countTrap.pc = s.pc := rfl
@[simp] theorem countTrap_cond : s.countTrap.cond = s.cond := rfl
@[simp] theorem countTrap_mem : s.countTrap.mem = s.mem := rfl
@[simp] theorem countTrap_trapReplies : s.countTrap.trapReplies = s.trapReplies.tail := rfl
@[simp] theorem countTrap_trapDraws : s.countTrap.trapDraws = s.trapDraws + 1 := rfl

@[simp] theorem advance_regs : s.advance.regs = s.regs := rfl
@[simp] theorem advance_pc : s.advance.pc = s.pc + 1#16 := rfl
@[simp] theorem advance_cond : s.advance.cond = s.cond := rfl
@[simp] theorem advance_mem : s.advance.mem = s.mem := rfl
@[simp] theorem advance_trapReplies : s.advance.trapReplies = s.trapReplies := rfl
@[simp] theorem advance_trapDraws : s.advance.trapDraws = s.trapDraws := rfl

@[simp] theorem setcc_regs : (s.setcc v).regs = s.regs := rfl
@[simp] theorem setcc_pc : (s.setcc v).pc = s.pc := rfl
@[simp] theorem setcc_cond : (s.setcc v).cond = flagOf v := rfl
@[simp] theorem setcc_mem : (s.setcc v).mem = s.mem := rfl
@[simp] theorem setcc_trapReplies : (s.setcc v).trapReplies = s.trapReplies := rfl
@[simp] theorem setcc_trapDraws : (s.setcc v).trapDraws = s.trapDraws := rfl

@[simp] theorem writeResult_regs : (s.writeResult i v).regs = s.regs.set i.toNat v i.isLt := rfl
@[simp] theorem writeResult_pc : (s.writeResult i v).pc = s.pc := rfl
@[simp] theorem writeResult_cond : (s.writeResult i v).cond = flagOf v := rfl
@[simp] theorem writeResult_mem : (s.writeResult i v).mem = s.mem := rfl
@[simp] theorem writeResult_trapReplies : (s.writeResult i v).trapReplies = s.trapReplies := rfl
@[simp] theorem writeResult_trapDraws : (s.writeResult i v).trapDraws = s.trapDraws := rfl

@[simp] theorem link_regs : s.link.regs = s.regs.set 7 s.pc (by decide) := rfl
@[simp] theorem link_pc : s.link.pc = s.pc := rfl
@[simp] theorem link_cond : s.link.cond = s.cond := rfl
@[simp] theorem link_mem : s.link.mem = s.mem := rfl
@[simp] theorem link_trapReplies : s.link.trapReplies = s.trapReplies := rfl
@[simp] theorem link_trapDraws : s.link.trapDraws = s.trapDraws := rfl

/-! Registers: what `reg` reads after each update. -/

@[simp] theorem reg_setReg_same : (s.setReg i v).reg i = v := by
  simp [State.reg, State.setReg]

theorem reg_setReg_other (h : j ≠ i) : (s.setReg i v).reg j = s.reg j := by
  have hn : i.toNat ≠ j.toNat := fun e => h (BitVec.eq_of_toNat_eq e.symm)
  simp [State.reg, State.setReg, Vector.getElem_set_ne, hn]

@[simp] theorem reg_setPc : (s.setPc v).reg i = s.reg i := rfl
@[simp] theorem reg_setCond : (s.setCond f).reg i = s.reg i := rfl
@[simp] theorem reg_setcc : (s.setcc v).reg i = s.reg i := rfl
@[simp] theorem reg_store : (s.store a v).reg i = s.reg i := rfl
@[simp] theorem reg_countTrap : s.countTrap.reg i = s.reg i := rfl
@[simp] theorem reg_advance : s.advance.reg i = s.reg i := rfl

@[simp] theorem reg_writeResult_same : (s.writeResult i v).reg i = v := by
  simp [State.writeResult]

theorem reg_writeResult_other (h : j ≠ i) : (s.writeResult i v).reg j = s.reg j := by
  simp [State.writeResult, reg_setReg_other, h]

@[simp] theorem reg_link_seven : s.link.reg 7#3 = s.pc := by simp [State.link]

theorem reg_link_other (h : j ≠ 7#3) : s.link.reg j = s.reg j := by
  simp [State.link, reg_setReg_other, h]

/-! Memory reads after an update that does not store. -/

@[simp] theorem load_setReg : (s.setReg i v).load a = s.load a := rfl
@[simp] theorem load_setPc : (s.setPc v).load a = s.load a := rfl
@[simp] theorem load_setCond : (s.setCond f).load a = s.load a := rfl
@[simp] theorem load_countTrap : s.countTrap.load a = s.load a := rfl
@[simp] theorem load_advance : s.advance.load a = s.load a := rfl
@[simp] theorem load_setcc : (s.setcc v).load a = s.load a := rfl
@[simp] theorem load_writeResult : (s.writeResult i v).load a = s.load a := rfl
@[simp] theorem load_link : s.link.load a = s.load a := rfl

end Sys2Proof.Machine
end

