-- ==== Sys2Proof/Laws/Ops.lean ====
section
/-! SUPPORT. One lemma per shared operation that says what it can do: the flag of a value, the branch test, the engine
fault, the trap delegation and the dispatcher's writes. -/

namespace Sys2Proof.Machine

/-- The flag policy in terms of the library's sign bit (R106). -/
theorem flagOf_eq (v : Word) : flagOf v = if v = 0#16 then flagZ else if v.msb then flagN else flagP := by
  have hm : Bits.isNegative v = v.msb := by
    rw [Bits.isNegative, Bits.getBit_eq, BitVec.msb_eq_getLsbD_last]
    cases v.getLsbD 15 <;> simp
  rw [flagOf, hm]

/-- setcc leaves exactly one flag (R27). -/
@[simp] theorem oneHot_flagOf (v : Word) : oneHot (flagOf v) = true := by
  unfold flagOf; split
  · rfl
  · split <;> rfl

/-- The branch test as R140 words it. -/
theorem branchTaken_iff (nzp cond : Cond) : branchTaken nzp cond = true ↔ nzp = 0#3 ∨ nzp &&& cond ≠ 0#3 := by
  simp [branchTaken]

/-- The engine fault carries the state it was raised in. -/
theorem engineFault_eq (ir : Word) (s : State) :
    engineFault ir s = .fault (.engineFault { pc := s.pc, word := ir, opcode := ir.extractLsb' 12 4 } s) := by
  simp [engineFault]

theorem engineFault_ne_next (ir : Word) (s t : State) : engineFault ir s ≠ .next t := nofun

/-- If the delegation goes on, the reply was Continue and the state is the one the service left. -/
theorem trapDelegate_next (ir : Word) (s t : State) (h : trapDelegate ir s = .next t) :
    ∃ writes, s.nextTrapReply ir = .returns writes .goOn ∧ t = s.countTrap.applyWrites writes := by
  unfold trapDelegate at h
  generalize s.nextTrapReply ir = r at h
  cases r with
  | noResult => cases h
  | returns writes status =>
    cases status with
    | goOn => cases h; exact ⟨writes, rfl, rfl⟩
    | halt => cases h

/-- If the delegation stops, it halted with the state the service left, or there was no result. -/
theorem trapDelegate_fault (ir : Word) (s : State) (f : Fault) (h : trapDelegate ir s = .fault f) :
    (∃ writes, s.nextTrapReply ir = .returns writes .halt ∧ f = .halt (s.countTrap.applyWrites writes)) ∨
    (s.nextTrapReply ir = .noResult ∧ f = .trapStuck ir s) := by
  unfold trapDelegate at h
  generalize s.nextTrapReply ir = r at h
  cases r with
  | noResult => cases h; exact .inr ⟨rfl, rfl⟩
  | returns writes status =>
    cases status with
    | goOn => cases h
    | halt => cases h; exact .inl ⟨writes, rfl, rfl⟩

/-- The delegation never refuses. -/
theorem trapDelegate_ne_refused (ir : Word) (s : State) (r : Refusal) : trapDelegate ir s ≠ .refused r := by
  unfold trapDelegate
  generalize s.nextTrapReply ir = q
  cases q with
  | noResult => nofun
  | returns writes status => cases status <;> nofun

/-! What the dispatcher's writes leave alone. -/

theorem applyWrites_reg_other (s : State) (ws : List StoreWrite) (r : RegId) (h : ∀ v, .reg r v ∉ ws) :
    (s.applyWrites ws).reg r = s.reg r := by
  induction ws generalizing s with
  | nil => rfl
  | cons w rest ih =>
    rw [applyWrites_cons, ih _ (fun v hv => h v (by simp [hv]))]
    cases w with
    | reg i v => exact reg_setReg_other s i r v (fun e => h v (by simp [e]))
    | pc t => rfl
    | cond f => rfl
    | mem a v => rfl

theorem applyWrites_pc (s : State) (ws : List StoreWrite) (h : ∀ v, .pc v ∉ ws) : (s.applyWrites ws).pc = s.pc := by
  induction ws generalizing s with
  | nil => rfl
  | cons w rest ih =>
    rw [applyWrites_cons, ih _ (fun v hv => h v (by simp [hv]))]
    cases w with
    | pc t => exact absurd (by simp) (h t)
    | reg i v => rfl
    | cond f => rfl
    | mem a v => rfl

theorem applyWrites_cond (s : State) (ws : List StoreWrite) (h : ∀ f, .cond f ∉ ws) :
    (s.applyWrites ws).cond = s.cond := by
  induction ws generalizing s with
  | nil => rfl
  | cons w rest ih =>
    rw [applyWrites_cons, ih _ (fun v hv => h v (by simp [hv]))]
    cases w with
    | cond f => exact absurd (by simp) (h f)
    | reg i v => rfl
    | pc t => rfl
    | mem a v => rfl

theorem applyWrites_load_other (s : State) (ws : List StoreWrite) (a : Word) (h : ∀ v, .mem a v ∉ ws) :
    (s.applyWrites ws).load a = s.load a := by
  induction ws generalizing s with
  | nil => rfl
  | cons w rest ih =>
    rw [applyWrites_cons, ih _ (fun v hv => h v (by simp [hv]))]
    cases w with
    | mem b v => exact load_store_other s b a v (fun e => h v (by simp [e]))
    | reg i v => rfl
    | pc t => rfl
    | cond f => rfl

@[simp] theorem applyWrites_trapReplies (s : State) (ws : List StoreWrite) :
    (s.applyWrites ws).trapReplies = s.trapReplies := by
  induction ws generalizing s with
  | nil => rfl
  | cons w rest ih => rw [applyWrites_cons, ih]; cases w <;> rfl

@[simp] theorem applyWrites_trapDraws (s : State) (ws : List StoreWrite) : (s.applyWrites ws).trapDraws = s.trapDraws := by
  induction ws generalizing s with
  | nil => rfl
  | cons w rest ih => rw [applyWrites_cons, ih]; cases w <;> rfl

end Sys2Proof.Machine
end

