-- ==== Sys2Proof/Laws/PerInstr.lean ====
section
/-! SUPPORT. Statements made per instruction. ImmediateInRange: every instruction's immediate, read as a signed number, lies
in the range 30_encoding.md R65 gives its field, so every term of Instr is well formed. -/

namespace Sys2Proof

/-- A field of `n + 1` bits, read as a signed number, fits a field of `n + 1` bits. -/
theorem fitsSigned_toInt {n : Nat} (x : BitVec (n + 1)) : fitsSigned (n + 1) x.toInt = true := by
  have h1 := BitVec.le_toInt x
  have h2 := BitVec.toInt_lt (x := x)
  simp only [fitsSigned, Nat.add_sub_cancel, Bool.and_eq_true, decide_eq_true_eq] at *
  exact ⟨h1, h2⟩

namespace Laws.ImmediateInRange

/-- The family's statement about one instruction. -/
def Statement (i : Instr) : Prop := i.wellFormed = true

theorem addReg (dr sr1 sr2 : RegId) : Statement (.addReg dr sr1 sr2) := rfl
theorem addImm (dr sr1 : RegId) (imm5 : BitVec 5) : Statement (.addImm dr sr1 imm5) := fitsSigned_toInt imm5
theorem andReg (dr sr1 sr2 : RegId) : Statement (.andReg dr sr1 sr2) := rfl
theorem andImm (dr sr1 : RegId) (imm5 : BitVec 5) : Statement (.andImm dr sr1 imm5) := fitsSigned_toInt imm5
theorem not (dr sr1 : RegId) : Statement (.not dr sr1) := rfl
theorem br (nzp : Cond) (off : BitVec 9) : Statement (.br nzp off) := fitsSigned_toInt off
theorem jmp (baseR : RegId) : Statement (.jmp baseR) := rfl
theorem jsr (off : BitVec 11) : Statement (.jsr off) := fitsSigned_toInt off
theorem jsrr (baseR : RegId) : Statement (.jsrr baseR) := rfl
theorem ld (dr : RegId) (off : BitVec 9) : Statement (.ld dr off) := fitsSigned_toInt off
theorem ldi (dr : RegId) (off : BitVec 9) : Statement (.ldi dr off) := fitsSigned_toInt off
theorem ldr (dr baseR : RegId) (off : BitVec 6) : Statement (.ldr dr baseR off) := fitsSigned_toInt off
theorem lea (dr : RegId) (off : BitVec 9) : Statement (.lea dr off) := fitsSigned_toInt off
theorem st (sr : RegId) (off : BitVec 9) : Statement (.st sr off) := fitsSigned_toInt off
theorem sti (sr : RegId) (off : BitVec 9) : Statement (.sti sr off) := fitsSigned_toInt off
theorem str (sr baseR : RegId) (off : BitVec 6) : Statement (.str sr baseR off) := fitsSigned_toInt off
theorem trap (high4 : BitVec 4) (trapvect8 : BitVec 8) : Statement (.trap high4 trapvect8) := rfl
theorem reserved8 (low12 : BitVec 12) : Statement (.reserved8 low12) := rfl
theorem reservedD (low12 : BitVec 12) : Statement (.reservedD low12) := rfl

end Laws.ImmediateInRange
end Sys2Proof
end

