-- ==== Sys2Proof/Laws/Step.lean ====
section
/-! SUPPORT. What exec can do, said once: the shapes of a next state, and which instructions stop. -/

namespace Sys2Proof.Machine

/-- If exec answers a next state, it has one of five shapes, by the kind of instruction. -/
theorem exec_next (i : Instr) (s t : State) (h : exec i s = .next t) :
    (∃ dr r, i.setsFlags = true ∧ i.isStore = false ∧ i.writesReg? = some dr ∧ t = s.advance.writeResult dr r) ∨
    (∃ target, i.setsFlags = false ∧ i.isStore = false ∧ i.writesReg? = none ∧ t = s.advance.setPc target) ∨
    (∃ target, i.setsFlags = false ∧ i.isStore = false ∧ i.writesReg? = some 7#3 ∧ t = s.advance.link.setPc target) ∨
    (∃ a v, i.setsFlags = false ∧ i.isStore = true ∧ i.writesReg? = none ∧ t = s.advance.store a v) ∨
    (∃ high4 vec writes, i = .trap high4 vec ∧ s.advance.nextTrapReply (encode i) = .returns writes .goOn ∧
      t = s.advance.countTrap.applyWrites writes) := by
  cases i
  case addReg | addImm | andReg | andImm | not | ld | ldi | ldr | lea =>
    cases h; exact .inl ⟨_, _, rfl, rfl, rfl, rfl⟩
  case br nzp off =>
    cases h
    refine .inr (.inl ⟨if branchTaken nzp s.advance.cond then s.advance.pcRelative off else s.advance.pc, rfl, rfl, rfl, ?_⟩)
    split <;> rfl
  case jmp => cases h; exact .inr (.inl ⟨_, rfl, rfl, rfl, rfl⟩)
  case jsr | jsrr => cases h; exact .inr (.inr (.inl ⟨_, rfl, rfl, rfl, rfl⟩))
  case st | sti | str => cases h; exact .inr (.inr (.inr (.inl ⟨_, _, rfl, rfl, rfl, rfl⟩)))
  case trap high4 vec =>
    obtain ⟨writes, hr, ht⟩ := trapDelegate_next _ _ _ h
    exact .inr (.inr (.inr (.inr ⟨high4, vec, writes, rfl, hr, ht⟩)))
  case reserved8 | reservedD => cases h

/-- An instruction that is neither TRAP nor reserved answers a next state. -/
theorem exec_completes (i : Instr) (s : State) (ht : ∀ h v, i ≠ .trap h v)
    (hr : ∀ low, i ≠ .reserved8 low ∧ i ≠ .reservedD low) : ∃ t, exec i s = .next t := by
  cases i
  case trap high4 vec => exact absurd rfl (ht high4 vec)
  case reserved8 low => exact absurd rfl (hr low).1
  case reservedD low => exact absurd rfl (hr low).2
  all_goals exact ⟨_, rfl⟩

/-- If exec stops, the instruction is TRAP or reserved. -/
theorem exec_fault (i : Instr) (s : State) (f : Fault) (h : exec i s = .fault f) :
    (∃ high4 vec, i = .trap high4 vec ∧ trapDelegate (encode i) s.advance = .fault f) ∨
    ((∃ low, i = .reserved8 low ∨ i = .reservedD low) ∧ engineFault (encode i) s = .fault f) := by
  cases i
  case trap high4 vec => exact .inl ⟨high4, vec, rfl, h⟩
  case reserved8 low => exact .inr ⟨⟨low, .inl rfl⟩, h⟩
  case reservedD low => exact .inr ⟨⟨low, .inr rfl⟩, h⟩
  all_goals cases h

/-- A run ends with a fault within `n` steps exactly when fewer completed steps lead to a state whose step is that fault. -/
theorem run_fault_iff (n : Nat) (s : State) (f : Fault) :
    Sys2Proof.core.run n s = .fault f ↔
      ∃ k last, k < n ∧ Sys2Proof.core.run k s = .next last ∧ step last = .fault f := by
  induction n generalizing s with
  | zero => exact ⟨nofun, fun ⟨_, _, hk, _⟩ => absurd hk (Nat.not_lt_zero _)⟩
  | succ n ih =>
    simp only [Host.Core.run]
    cases ho : Sys2Proof.core.step s with
    | next s' =>
      refine (ih s').trans ⟨fun ⟨k, last, hk, hr, hs⟩ => ⟨k + 1, last, by omega, by simpa [Host.Core.run, ho] using hr, hs⟩, ?_⟩
      rintro ⟨k, last, hk, hr, hs⟩
      cases k with
      | zero => cases hr; cases ho.symm.trans hs
      | succ k => exact ⟨k, last, by omega, by simpa [Host.Core.run, ho] using hr, hs⟩
    | fault g =>
      refine ⟨fun h => ⟨0, s, by omega, rfl, ho.trans h⟩, ?_⟩
      rintro ⟨k, last, hk, hr, hs⟩
      cases k with
      | zero => cases hr; exact ho.symm.trans hs
      | succ k => simp [Host.Core.run, ho] at hr
    | refused r =>
      refine ⟨nofun, ?_⟩
      rintro ⟨k, last, hk, hr, hs⟩
      cases k with
      | zero => cases hr; cases ho.symm.trans hs
      | succ k => simp [Host.Core.run, ho] at hr

end Sys2Proof.Machine
end

