-- ==== Sys2Proof/Tests/Slice0.lean ====
section
/-! SUPPORT. Tests. Expected results come from spec/95_test_vectors.md (vector or scenario named at each test) and from the
examples of the rules. The last part shows, for every statement with hypotheses, a concrete input that meets them. -/

namespace Sys2Proof.Tests

open Sys2Proof Machine Bits

/-! ### Helpers -/

/-- A state as the vectors give it: every register and word not listed holds 0 (95_test_vectors.md section 0). -/
def mk (pc : Word) (cond : Cond) (regs : List (RegId × Word)) (mem : List (Word × Word))
    (replies : List TrapReply := []) : State :=
  let s := regs.foldl (fun s p => s.setReg p.1 p.2) { State.reset with pc := pc, cond := cond, trapReplies := replies }
  mem.foldl (fun s p => s.store p.1 p.2) s

/-- The next state of an outcome, if it has one. -/
def nextOf : Host.Outcome State Fault Refusal → Option State
  | .next t => some t
  | .fault _ => none
  | .refused _ => none

/-- The fault of an outcome, if it has one. -/
def faultOf : Host.Outcome State Fault Refusal → Option Fault
  | .next _ => none
  | .fault f => some f
  | .refused _ => none

/-- A register, the PC and COND after one step. -/
def after (s : State) (r : RegId) : Option (Word × Word × Cond) := (nextOf (step s)).map (fun t => (t.reg r, t.pc, t.cond))

/-- A word of memory, the PC and COND after one step. -/
def afterMem (s : State) (a : Word) : Option (Word × Word × Cond) :=
  (nextOf (step s)).map (fun t => (t.load a, t.pc, t.cond))

/-! ### WellFormed: the check refuses numbers no field holds (R65) -/

theorem test_wf_imm5 : immediateOk (some (5, 15)) = true ∧ immediateOk (some (5, 16)) = false ∧
    immediateOk (some (5, -16)) = true ∧ immediateOk (some (5, -17)) = false := by decide
theorem test_wf_offset6 : immediateOk (some (6, 31)) = true ∧ immediateOk (some (6, 32)) = false ∧
    immediateOk (some (6, -32)) = true ∧ immediateOk (some (6, -33)) = false := by decide
theorem test_wf_offset9 : immediateOk (some (9, 255)) = true ∧ immediateOk (some (9, 256)) = false ∧
    immediateOk (some (9, -256)) = true ∧ immediateOk (some (9, -257)) = false := by decide
theorem test_wf_offset11 : immediateOk (some (11, 1023)) = true ∧ immediateOk (some (11, 1024)) = false ∧
    immediateOk (some (11, -1024)) = true ∧ immediateOk (some (11, -1025)) = false := by decide
theorem test_wf_instr : (Instr.addImm 1 2 0x10).wellFormed = true ∧ (Instr.addImm 1 2 0x10).immediate? = some (5, -16) := by
  decide

/-! ### Decoding: a word of every row, its bits grouped as in R63 -/

theorem test_decode_addReg : decode 0b0001_011_001_0_00_010#16 = .addReg 3 1 2 := by decide
theorem test_decode_addReg_filler : decode 0b0001_000_001_0_11_010#16 = .addReg 0 1 2 := by decide
theorem test_decode_addImm : decode 0b0001_001_010_1_00101#16 = .addImm 1 2 5 := by decide
theorem test_decode_andReg : decode 0b0101_010_011_0_00_100#16 = .andReg 2 3 4 := by decide
theorem test_decode_andImm : decode 0b0101_001_001_1_11111#16 = .andImm 1 1 0x1F := by decide
theorem test_decode_not : decode 0b1001_001_010_111111#16 = .not 1 2 := by decide
theorem test_decode_not_filler : decode 0b1001_011_011_000000#16 = .not 3 3 := by decide
theorem test_decode_br : decode 0b0000_1_0_0_000000100#16 = .br 0b100 4 := by decide
theorem test_decode_jmp : decode 0b1100_000_010_000000#16 = .jmp 2 := by decide
theorem test_decode_ret : decode 0b1100_000_111_000000#16 = .jmp 7 := by decide
theorem test_decode_jsr : decode 0b0100_1_10000000000#16 = .jsr 0x400 := by decide
theorem test_decode_jsrr : decode 0b0100_0_11_010_111111#16 = .jsrr 2 := by decide
theorem test_decode_ld : decode 0b0010_000_100000000#16 = .ld 0 0x100 := by decide
theorem test_decode_ldi : decode 0b1010_001_000000010#16 = .ldi 1 2 := by decide
theorem test_decode_ldr : decode 0b0110_010_011_111111#16 = .ldr 2 3 0x3F := by decide
theorem test_decode_lea : decode 0b1110_100_111111110#16 = .lea 4 0x1FE := by decide
theorem test_decode_st : decode 0b0011_101_000000011#16 = .st 5 3 := by decide
theorem test_decode_sti : decode 0b1011_110_000000001#16 = .sti 6 1 := by decide
theorem test_decode_str : decode 0b0111_001_010_000100#16 = .str 1 2 4 := by decide
theorem test_decode_trap : decode 0b1111_1111_00100101#16 = .trap 0xF 0x25 := by decide
theorem test_decode_reserved8 : decode 0b1000_101010111100#16 = .reserved8 0xABC := by decide
theorem test_decode_reservedD : decode 0b1101_111111111111#16 = .reservedD 0xFFF := by decide
/-- The words of R72 and the textbook filler of R66. -/
theorem test_encode : encode (.jmp 7) = 0xC1C0#16 ∧ encode (.trap 0 0x25) = 0xF025#16 ∧ encode (.not 1 2) = 0x92BF#16 ∧
    encode (.jsrr 3) = 0x40C0#16 ∧ encode (.br 0 0) = 0x0000#16 := by decide
theorem test_table_rows : encodingTable.length = 19 := by decide

/-! ### Primitives: T1, T2, T3, section 2.1 -/

theorem test_setBit_clearBit : setBit 0x0000 15 = 0x8000#16 ∧ setBit 0x0001 0 = 0x0001#16 ∧ setBit 0x1234 3 = 0x123C#16 ∧
    clearBit 0xFFFF 0 = 0xFFFE#16 ∧ clearBit 0x8000 15 = 0x0000#16 ∧ clearBit 0x1234 3 = 0x1234#16 := by decide
theorem test_getBit : getBit 0x8000 15 = 1#16 ∧ getBit 0x8000 14 = 0#16 ∧ getBit 0x0001 0 = 1#16 := by decide
theorem test_getBits : getBits 0x12A5 12 4 = 1#16 ∧ getBits 0x12A5 9 3 = 1#16 ∧ getBits 0x12A5 6 3 = 2#16 ∧
    getBits 0x12A5 5 1 = 1#16 ∧ getBits 0x12A5 0 5 = 5#16 ∧ getBits 0xFFFF 0 16 = 0xFFFF#16 ∧ getBits 0xABCD 15 1 = 1#16 := by
  decide
theorem test_signExtend : signExtend 0x0F 5 = 0x000F#16 ∧ signExtend 0x10 5 = 0xFFF0#16 ∧ signExtend 0x20 6 = 0xFFE0#16 ∧
    signExtend 0x100 9 = 0xFF00#16 ∧ signExtend 0x3FF 11 = 0x03FF#16 ∧ signExtend 0x400 11 = 0xFC00#16 ∧
    signExtend 1 1 = 0xFFFF#16 ∧ signExtend 0x8000 16 = 0x8000#16 := by decide
/-- Bits above the field are dropped (C7). -/
theorem test_signExtend_high_bits : signExtend 0xFFEF 5 = 0x000F#16 := by decide
theorem test_sign_checks : isNegative 0x8000 = true ∧ isNegative 0x7FFF = false ∧ isPositive 0x7FFF = true ∧
    isPositive 0x0000 = true ∧ isPositive 0xFFFF = false := by decide

/-! ### Instructions: at most two vectors each -/

/-- O4: carry out and wrap to 0. -/
theorem test_addReg_wraps : after (mk 0x3000 1 [(1, 0xFFFF), (2, 1)] [(0x3000, 0x1042)]) 0 = some (0, 0x3001, 0b010) := by
  decide
/-- O2: all three registers the same. -/
theorem test_addReg_same : after (mk 0x3000 1 [(0, 0x4000)] [(0x3000, 0x1000)]) 0 = some (0x8000, 0x3001, 0b100) := by decide
/-- O6: the most negative immediate. -/
theorem test_addImm_min : after (mk 0x3000 1 [(1, 0x10)] [(0x3000, 0x1270)]) 1 = some (0, 0x3001, 0b010) := by decide
/-- K1: the PC wraps. -/
theorem test_addImm_pc_wraps : after (mk 0xFFFF 0 [] [(0xFFFF, 0x1021)]) 0 = some (1, 0x0000, 0b001) := by decide
/-- O9. -/
theorem test_andReg : after (mk 0x3000 1 [(3, 0xF0F0), (4, 0x0FF0)] [(0x3000, 0x54C4)]) 2 = some (0x00F0, 0x3001, 0b001) := by
  decide
/-- O12: the immediate -1 is 0xFFFF. -/
theorem test_andImm_sign : after (mk 0x3000 1 [(1, 0x8000)] [(0x3000, 0x527F)]) 1 = some (0x8000, 0x3001, 0b100) := by decide
/-- O15. -/
theorem test_not_zero : after (mk 0x3000 1 [(1, 0xFFFF)] [(0x3000, 0x907F)]) 0 = some (0, 0x3001, 0b010) := by decide
/-- O16: filler bits 000000. -/
theorem test_not_filler : after (mk 0x3000 1 [(3, 0x8000)] [(0x3000, 0x96C0)]) 3 = some (0x7FFF, 0x3001, 0b001) := by decide
/-- T6: mask 000 branches with COND 000. -/
theorem test_br_mask_zero : after (mk 0x3000 0 [] [(0x3000, 0x0004)]) 0 = some (0, 0x3005, 0) := by decide
/-- T7: BRn with COND P is not taken. -/
theorem test_br_miss : after (mk 0x3000 1 [] [(0x3000, 0x0804)]) 0 = some (0, 0x3001, 1) := by decide
/-- J3: ignored bits set. -/
theorem test_jmp_filler : after (mk 0x3000 1 [(2, 1)] [(0x3000, 0xCEBF)]) 7 = some (0, 0x0001, 1) := by decide
/-- J2. -/
theorem test_ret : after (mk 0x3000 4 [(7, 0x3050)] [(0x3000, 0xC1C0)]) 7 = some (0x3050, 0x3050, 4) := by decide
/-- J5: the smallest offset. -/
theorem test_jsr_min : after (mk 0x3000 1 [] [(0x3000, 0x4C00)]) 7 = some (0x3001, 0x2C01, 1) := by decide
/-- J4: the largest. -/
theorem test_jsr_max : after (mk 0x3000 1 [] [(0x3000, 0x4BFF)]) 7 = some (0x3001, 0x3400, 1) := by decide
/-- J9: R7 is written before it is read. -/
theorem test_jsrr_r7 : after (mk 0x3000 1 [(7, 0x1234)] [(0x3000, 0x41C0)]) 7 = some (0x3001, 0x3001, 1) := by decide
/-- J10. -/
theorem test_jsrr_filler : after (mk 0x3000 0 [(2, 0x6000)] [(0x3000, 0x46BF)]) 7 = some (0x3001, 0x6000, 0) := by decide
/-- L3: the address wraps below 0. -/
theorem test_ld_wraps : after (mk 0x0010 1 [] [(0x0010, 0x23E0), (0xFFF1, 0x0042)]) 1 = some (0x0042, 0x0011, 1) := by decide
/-- L2. -/
theorem test_ld_negative : after (mk 0x3000 1 [] [(0x3000, 0x2100), (0x2F01, 0x8000)]) 0 = some (0x8000, 0x3001, 4) := by decide
/-- T8. -/
theorem test_ldi : after (mk 0x3000 1 [] [(0x3000, 0xA202), (0x3003, 0x4000), (0x4000, 0xABCD)]) 1 =
    some (0xABCD, 0x3001, 4) := by decide
/-- L5: the pointer is the LDI word itself. -/
theorem test_ldi_self : after (mk 0x3000 2 [] [(0x3000, 0xA5FF)]) 2 = some (0, 0x3001, 2) := by decide
/-- L6: base and destination the same. -/
theorem test_ldr_same : after (mk 0x3000 1 [(1, 0x4020)] [(0x3000, 0x6260), (0x4000, 0x1234)]) 1 =
    some (0x1234, 0x3001, 1) := by decide
/-- L7: the address wraps above 0xFFFF. -/
theorem test_ldr_wraps : after (mk 0x3000 1 [(1, 0xFFF0)] [(0x3000, 0x625F)]) 1 = some (0, 0x3001, 2) := by decide
/-- L9: an address above 0x7FFF sets N. -/
theorem test_lea_negative : after (mk 0x8000 1 [] [(0x8000, 0xE600)]) 3 = some (0x8001, 0x8001, 4) := by decide
/-- L10: the address 0 sets Z. -/
theorem test_lea_zero : after (mk 0x0000 1 [] [(0x0000, 0xE7FF)]) 3 = some (0, 0x0001, 2) := by decide
/-- S1: the store overwrites its own word. -/
theorem test_st_self : afterMem (mk 0x3000 2 [(4, 0xBEEF)] [(0x3000, 0x39FF)]) 0x3000 = some (0xBEEF, 0x3001, 2) := by decide
/-- S2: storing 0 leaves COND. -/
theorem test_st_zero : afterMem (mk 0x3000 4 [] [(0x3000, 0x38FF), (0x3100, 0x5555)]) 0x3100 = some (0, 0x3001, 4) := by decide
/-- S3. -/
theorem test_sti : afterMem (mk 0x3000 1 [(5, 0x00AA)] [(0x3000, 0xBA02), (0x3003, 0x5000)]) 0x5000 =
    some (0x00AA, 0x3001, 1) := by decide
/-- S4: source and base the same. -/
theorem test_str_same : afterMem (mk 0x3000 4 [(6, 0x4000)] [(0x3000, 0x7D81)]) 0x4001 = some (0x4000, 0x3001, 4) := by decide
/-- S5: the address wraps to 0xFFFF. -/
theorem test_str_wraps : afterMem (mk 0x3000 2 [(1, 0x7777)] [(0x3000, 0x72BF)]) 0xFFFF = some (0x7777, 0x3001, 2) := by decide
/-- X1: the service returns its input with Halt; TRAP saves no R7 and sets no flag. -/
theorem test_trap_halt :
    (match step (mk 0x3000 4 [(7, 0x1234)] [(0x3000, 0xF025)] [.returns [] .halt]) with
      | .fault (.halt t) => some (t.reg 7, t.pc, t.cond)
      | _ => none) = some (0x1234, 0x3001, 4) := by decide
/-- T10, second instance: Continue with R0 written. -/
theorem test_trap_continue :
    after (mk 0x3000 4 [] [(0x3000, 0xF021)] [.returns [.reg 0 0x41] .goOn]) 0 = some (0x41, 0x3001, 4) := by decide
/-- X3. -/
theorem test_reserved8 : faultOf (step (mk 0x3000 1 [(0, 5)] [(0x3000, 0x8000)])) =
    some (.engineFault ⟨0x3000, 0x8000, 0x8⟩ (mk 0x3000 1 [(0, 5)] [(0x3000, 0x8000)])) := by decide
/-- X5: the PC does not wrap. -/
theorem test_reserved8_top : faultOf (step (mk 0xFFFF 2 [] [(0xFFFF, 0x8ABC)])) =
    some (.engineFault ⟨0xFFFF, 0x8ABC, 0x8⟩ (mk 0xFFFF 2 [] [(0xFFFF, 0x8ABC)])) := by decide
/-- X4. -/
theorem test_reservedD : faultOf (step (mk 0x3000 0 [] [(0x3000, 0xDFFF)])) =
    some (.engineFault ⟨0x3000, 0xDFFF, 0xD⟩ (mk 0x3000 0 [] [(0x3000, 0xDFFF)])) := by decide
/-- The host's entry: the first step after reset runs the word placed (ADD R1, R2, #5 of T5, with R2 = 0). -/
theorem test_withFetchWord : after (State.reset.withFetchWord 16 0x12A5) 1 = some (5, 0x0001, 0b001) := by decide
theorem test_decodeTableWord : decodeTableWord 16 0x12A5 = some (.addImm 1 2 5) := by decide
/-- A write of the unlisted word takes the entry out; entries stay in rising order. -/
theorem test_memory_canonical :
    (((⟨[]⟩ : Memory).write 5 1).write 3 2).cells = [(3, 2), (5, 1)] ∧
    ((((⟨[]⟩ : Memory).write 5 1).write 3 2).write 5 0).cells = [(3, 2)] ∧ Memory.wf ⟨[(5, 1), (3, 2)]⟩ = false ∧
    Memory.wf ⟨[(3, 0)]⟩ = false ∧ Memory.wf ⟨[(65536, 1)]⟩ = false := by decide

/-! ### Witnesses: inputs that meet the hypotheses of each statement -/

theorem witness_DecodeIgnoresFillerBits :
    (0x1042#16 &&& 0xB020#16 = 0x1000#16 ∧ 0x105A#16 &&& 0xFFE7#16 = 0x1042#16 &&& 0xFFE7#16) ∧
    (0x5042#16 &&& 0xB020#16 = 0x1000#16 ∧ 0x505A#16 &&& 0xFFE7#16 = 0x5042#16 &&& 0xFFE7#16) ∧
    (0x96FF#16 &&& 0xF000#16 = 0x9000#16 ∧ 0x96C0#16 &&& 0xFFC0#16 = 0x96FF#16 &&& 0xFFC0#16) ∧
    (0xC080#16 &&& 0xF000#16 = 0xC000#16 ∧ 0xCEBF#16 &&& 0xF1C0#16 = 0xC080#16 &&& 0xF1C0#16) ∧
    (0x4080#16 &&& 0xF800#16 = 0x4000#16 ∧ 0x46BF#16 &&& 0xF9C0#16 = 0x4080#16 &&& 0xF9C0#16) := by decide
theorem witness_BitPrimitivesByBit : 0 ≤ 15 ∧ 15 ≤ 15 := by decide
theorem witness_GetBitsRightJustified : (1 ≤ 1 ∧ 15 + 1 ≤ 16) ∧ (1 ≤ 16 ∧ 0 + 16 ≤ 16) := by decide
theorem witness_SignExtendIsTwosComplement :
    (1 ≤ 1 ∧ 1 ≤ 16) ∧ (1 ≤ 16 ∧ 16 ≤ 16) ∧ (0xFFEF#16).setWidth 5 = (0x000F#16).setWidth 5 := by decide
theorem witness_PrimitiveLaws : (15 ≤ 15 ∧ 0 ≤ 15 ∧ 0 ≠ 15) ∧ (1 ≤ 16 ∧ 0 + 16 ≤ 16) := by decide
theorem witness_CanonicalMemoryIsUnique :
    Memory.wf ⟨[(0, 1), (65535, 2)]⟩ = true ∧ ∀ a, (⟨[(0, 1), (65535, 2)]⟩ : Memory).read a = (⟨[(0, 1), (65535, 2)]⟩ : Memory).read a :=
  ⟨by decide, fun _ => rfl⟩
/-- First clause, with a store that writes the last word of memory. -/
theorem witness_StepKeepsMemoryCanonical_next :
    (mk 0x3000 2 [(1, 0x7777)] [(0x3000, 0x72BF)]).MemCanonical ∧
    ∃ t, step (mk 0x3000 2 [(1, 0x7777)] [(0x3000, 0x72BF)]) = .next t := ⟨by unfold State.MemCanonical; decide, _, rfl⟩
theorem witness_StepKeepsMemoryCanonical_halt :
    (mk 0x3000 4 [] [(0x3000, 0xF025)] [.returns [.mem 0 7] .halt]).MemCanonical ∧
    ∃ f, step (mk 0x3000 4 [] [(0x3000, 0xF025)] [.returns [.mem 0 7] .halt]) = .fault (.halt f) :=
  ⟨by unfold State.MemCanonical; decide, _, rfl⟩
/-- S6 for ST; STI through a pointer to the next word; STR with the base there. -/
theorem witness_StoreSeenByNextFetch_st :
    decode (mk 0x3000 1 [(0, 0x1021)] [(0x3000, 0x3000)]).fetch = .st 0 0 ∧
    (mk 0x3000 1 [(0, 0x1021)] [(0x3000, 0x3000)]).advance.pcRelative 0 = 0x3001#16 := by decide
theorem witness_StoreSeenByNextFetch_sti :
    decode (mk 0x3000 1 [(0, 0x1021)] [(0x3000, 0xB001), (0x3002, 0x3001)]).fetch = .sti 0 1 ∧
    (mk 0x3000 1 [(0, 0x1021)] [(0x3000, 0xB001), (0x3002, 0x3001)]).advance.indirect 1 = 0x3001#16 := by decide
theorem witness_StoreSeenByNextFetch_str :
    decode (mk 0x3000 1 [(0, 0x1021), (1, 0x3000)] [(0x3000, 0x7041)]).fetch = .str 0 1 1 ∧
    (mk 0x3000 1 [(0, 0x1021), (1, 0x3000)] [(0x3000, 0x7041)]).advance.baseOffset 1 1 = 0x3001#16 := by decide
theorem witness_StepRunsDecodedInstruction :
    decode ((mk 0x3000 0 [(2, 10)] [(0x3000, 0x12A5)]).load 0x3000) = .addImm 1 2 5 := by decide
theorem witness_SetccPolicy : (0x0000#16 = 0#16) ∧ (0x8000#16).toInt < 0 ∧ (0xFFFF#16).toInt < 0 ∧ 0 < (0x0001#16).toInt ∧
    0 < (0x7FFF#16).toInt := by decide
/-- The three clauses about a next state: ADD, ST, and TRAP with a service that writes R0 only. -/
theorem witness_FlagPolicyOfInstructions_sets :
    (∃ t, exec (.addReg 0 1 2) State.reset = .next t) ∧ (Instr.addReg 0 1 2).setsFlags = true := ⟨⟨_, rfl⟩, rfl⟩
theorem witness_FlagPolicyOfInstructions_keeps :
    (∃ t, exec (.st 0 0) State.reset = .next t) ∧ (Instr.st 0 0).setsFlags = false ∧ ∀ h v, Instr.st 0 0 ≠ .trap h v :=
  ⟨⟨_, rfl⟩, rfl, nofun⟩
theorem witness_FlagPolicyOfInstructions_trap :
    (∃ t, exec (.trap 0 0x21) (mk 0 2 [] [] [.returns [.reg 0 7] .goOn]) = .next t) ∧
    (mk 0 2 [] [] [.returns [.reg 0 7] .goOn]).advance.nextTrapReply (encode (.trap 0 0x21)) = .returns [.reg 0 7] .goOn ∧
    ∀ f, StoreWrite.cond f ∉ [StoreWrite.reg 0 7] := ⟨⟨_, rfl⟩, rfl, by simp⟩
theorem witness_OneHotCondKept :
    oneHot (mk 0x3000 4 [] [(0x3000, 0x1042)]).cond = true ∧ (mk 0x3000 4 [] [(0x3000, 0x1042)]).nextOpcode ≠ 0xF#4 ∧
    ∃ t, step (mk 0x3000 4 [] [(0x3000, 0x1042)]) = .next t := ⟨by decide, by decide, _, rfl⟩
theorem witness_FlagSettersLeaveOneFlag :
    [Instr.addReg 0 1 2, .addImm 0 1 5, .andReg 0 1 2, .andImm 0 1 5, .not 0 1, .ld 0 1, .ldi 0 1, .ldr 0 1 1, .lea 0 1].all
      Instr.setsFlags = true := by decide
theorem witness_LiveWordsContinue :
    (mk 0x3000 0 [] [(0x3000, 0x0004)]).nextOpcode ≠ 0xF#4 ∧
    reservedOpcode (mk 0x3000 0 [] [(0x3000, 0x0004)]).nextOpcode = false := by decide
theorem witness_RegistersWrittenByTable :
    (mk 0x3000 1 [] [(0x3000, 0x4810)]).nextOpcode ≠ 0xF#4 ∧ ∃ t, step (mk 0x3000 1 [] [(0x3000, 0x4810)]) = .next t :=
  ⟨by decide, _, rfl⟩
theorem witness_OnlyStoresAndTrapWriteMemory :
    (mk 0x3000 1 [] [(0x3000, 0x2005)]).nextOpcode ≠ 0xF#4 ∧
    (decode (mk 0x3000 1 [] [(0x3000, 0x2005)]).fetch).isStore = false ∧
    ∃ t, step (mk 0x3000 1 [] [(0x3000, 0x2005)]) = .next t := ⟨by decide, by decide, _, rfl⟩
/-- One word for each of the three clauses. -/
theorem witness_StoresChangeOneWord :
    decode (mk 0x3000 1 [(5, 0xAA)] [(0x3000, 0x3A03)]).fetch = .st 5 3 ∧
    decode (mk 0x3000 1 [(6, 0x7777)] [(0x3000, 0xBC01), (0x3002, 0x5000)]).fetch = .sti 6 1 ∧
    decode (mk 0x3000 1 [(1, 0xBEEF), (2, 0x4000)] [(0x3000, 0x7284)]).fetch = .str 1 2 4 := by decide
/-- The encodings: a word of each row meets its mask and match, the lowest and the highest. -/
theorem witness_AddRegisterForm : 0x1000#16 &&& 0xF020#16 = 0x1000#16 ∧ 0x1FDF#16 &&& 0xF020#16 = 0x1000#16 := by decide
theorem witness_AddImmediateForm : 0x1020#16 &&& 0xF020#16 = 0x1020#16 ∧ 0x1FFF#16 &&& 0xF020#16 = 0x1020#16 := by decide
theorem witness_AndRegisterForm : 0x5000#16 &&& 0xF020#16 = 0x5000#16 ∧ 0x5FDF#16 &&& 0xF020#16 = 0x5000#16 := by decide
theorem witness_AndImmediateForm : 0x5020#16 &&& 0xF020#16 = 0x5020#16 ∧ 0x5FFF#16 &&& 0xF020#16 = 0x5020#16 := by decide
theorem witness_NotInstruction : 0x9000#16 &&& 0xF000#16 = 0x9000#16 ∧ 0x9FFF#16 &&& 0xF000#16 = 0x9000#16 := by decide
theorem witness_BranchInstruction : 0x0000#16 &&& 0xF000#16 = 0x0000#16 ∧ 0x0FFF#16 &&& 0xF000#16 = 0x0000#16 := by decide
theorem witness_BranchMasksZeroAndSeven : (mk 0 4 [] []).cond ≠ 0#3 ∧ (mk 0 0 [] []).cond = 0#3 := by decide
theorem witness_JumpInstruction : 0xC000#16 &&& 0xF000#16 = 0xC000#16 ∧ 0xCFFF#16 &&& 0xF000#16 = 0xC000#16 := by decide
theorem witness_CallRelative : 0x4800#16 &&& 0xF800#16 = 0x4800#16 ∧ 0x4FFF#16 &&& 0xF800#16 = 0x4800#16 := by decide
theorem witness_CallRegister : 0x4000#16 &&& 0xF800#16 = 0x4000#16 ∧ 0x47FF#16 &&& 0xF800#16 = 0x4000#16 := by decide
theorem witness_LoadInstruction : 0x2000#16 &&& 0xF000#16 = 0x2000#16 ∧ 0x2FFF#16 &&& 0xF000#16 = 0x2000#16 := by decide
theorem witness_LoadIndirect : 0xA000#16 &&& 0xF000#16 = 0xA000#16 ∧ 0xAFFF#16 &&& 0xF000#16 = 0xA000#16 := by decide
theorem witness_LoadBaseOffset : 0x6000#16 &&& 0xF000#16 = 0x6000#16 ∧ 0x6FFF#16 &&& 0xF000#16 = 0x6000#16 := by decide
theorem witness_LoadEffectiveAddress : 0xE000#16 &&& 0xF000#16 = 0xE000#16 ∧ 0xEFFF#16 &&& 0xF000#16 = 0xE000#16 := by decide
theorem witness_StoreInstruction : 0x3000#16 &&& 0xF000#16 = 0x3000#16 ∧ 0x3FFF#16 &&& 0xF000#16 = 0x3000#16 := by decide
theorem witness_StoreIndirect : 0xB000#16 &&& 0xF000#16 = 0xB000#16 ∧ 0xBFFF#16 &&& 0xF000#16 = 0xB000#16 := by decide
theorem witness_StoreBaseOffset : 0x7000#16 &&& 0xF000#16 = 0x7000#16 ∧ 0x7FFF#16 &&& 0xF000#16 = 0x7000#16 := by decide
theorem witness_LoadStoreFamilyFlags :
    (∃ off, Instr.ld 0 1 = .ld 0 off) ∧ (∃ off, Instr.ldi 7 1 = .ldi 7 off) ∧ (∃ b off, Instr.ldr 0 1 2 = .ldr 0 b off) ∧
    (∃ off, Instr.lea 0 1 = .lea 0 off) ∧ (∃ off, Instr.st 0 1 = .st 0 off) ∧ (∃ off, Instr.sti 0 1 = .sti 0 off) ∧
    (∃ b off, Instr.str 0 1 2 = .str 0 b off) :=
  ⟨⟨_, rfl⟩, ⟨_, rfl⟩, ⟨_, _, rfl⟩, ⟨_, rfl⟩, ⟨_, rfl⟩, ⟨_, rfl⟩, ⟨_, _, rfl⟩⟩
theorem witness_TrapStepIsTheReply : (mk 0x3000 4 [] [(0x3000, 0xFF25)]).nextOpcode = 0xF#4 := by decide
/-- Every guarded clause of TrapContinues with one reply: R0 and 0x4000 written, R1, the PC, COND and 0x4001 not. -/
theorem witness_TrapContinues :
    (mk 0x3000 4 [] [] [.returns [.reg 0 7, .mem 0x4000 9] .goOn]).trapReplies =
      .returns [.reg 0 7, .mem 0x4000 9] .goOn :: [] ∧
    (∀ v, StoreWrite.reg 1 v ∉ [StoreWrite.reg 0 7, .mem 0x4000 9]) ∧
    (∀ v, StoreWrite.pc v ∉ [StoreWrite.reg 0 7, .mem 0x4000 9]) ∧
    (∀ f, StoreWrite.cond f ∉ [StoreWrite.reg 0 7, .mem 0x4000 9]) ∧
    (∀ v, StoreWrite.mem 0x4001 v ∉ [StoreWrite.reg 0 7, .mem 0x4000 9]) := by
  refine ⟨rfl, ?_, ?_, ?_, ?_⟩ <;> simp
theorem witness_TrapHalts : (mk 0 0 [] [] [.returns [] .halt]).trapReplies = .returns [] .halt :: [] := rfl
theorem witness_TrapWithoutResultIsStuck : (mk 0 0 [] [] [.noResult]).trapReplies = .noResult :: [] := rfl
theorem witness_EngineFaultExactlyOnReserved :
    reservedOpcode (mk 0x3000 1 [] [(0x3000, 0x8000)]).nextOpcode = true ∧
    reservedOpcode (mk 0x3000 1 [] [(0x3000, 0xD000)]).nextOpcode = true := by decide
theorem witness_OnlyTrapHaltsOrSticks : (mk 0x3000 1 [] [(0x3000, 0x1021)]).nextOpcode ≠ 0xF#4 := by decide
/-- Both sides of the first clause: one instruction completes, then a TRAP whose service writes R1 and halts. -/
theorem witness_RunEndsAtHaltReplyOrReservedWord_halt :
    let s := mk 0x3000 1 [(0, 5)] [(0x3000, 0x1021), (0x3001, 0xF025)] [.returns [.reg 1 9] .halt]
    (∃ f, HaltsWith 2 s f) ∧ ∃ last, Sys2Proof.core.run 1 s = .next last ∧ last.nextOpcode = 0xF#4 ∧
      last.advance.nextTrapReply last.fetch = .returns [.reg 1 9] .halt := ⟨⟨_, rfl⟩, _, rfl, by decide, rfl⟩
/-- The second clause, with the first words of P4. -/
theorem witness_RunEndsAtHaltReplyOrReservedWord_fault :
    ∃ final, Sys2Proof.core.run 1 (mk 0x3000 1 [(0, 5)] [(0x3000, 0x1021), (0x3001, 0x8ABC)]) = .next final ∧
      reservedOpcode final.nextOpcode = true := ⟨_, rfl, by decide⟩
/-- P4: one instruction completes, then the fault. -/
theorem witness_FaultedRunStandsAtReservedWord :
    ∃ info f, FaultsWith 2 (mk 0x3000 1 [(0, 5)] [(0x3000, 0x1021), (0x3001, 0x8ABC)]) info f := ⟨_, _, rfl⟩

end Sys2Proof.Tests
end

/-! PROOFS. Registers, canonical memory, flags and the register frame of a step (10_state.md, 20_memory.md section 1). -/

namespace Sys2Proof.Machine

/-! ### Registers -/

/-- A register read after a register write. -/
theorem reg_setReg (s : State) (i j : RegId) (v : Word) :
    (s.setReg i v).reg j = if j = i then v else s.reg j := by
  by_cases h : j = i
  · subst h; simp
  · simp [reg_setReg_other, h]

/-- Settles O12: the read-after-write law, and one frame law for each other part of the state. -/
theorem registersAreIndependent : Obligations.RegistersAreIndependent := fun s i j v =>
  ⟨reg_setReg s i j v, setReg_pc s i v, setReg_cond s i v, load_setReg s i v⟩

/-! ### Canonical memory -/

theorem cellsWf_cons_iff (lo k : Nat) (v : Word) (rest : List Cell) :
    cellsWf lo ((k, v) :: rest) = true ↔
      lo ≤ k ∧ k < wordCount ∧ v ≠ Memory.unlisted ∧ cellsWf (k + 1) rest = true := by
  simp [cellsWf, and_assoc]

@[simp] theorem cellsRead_nil (a : Nat) : cellsRead [] a = Memory.unlisted := rfl

@[simp] theorem cellsRead_cons_self (k : Nat) (v : Word) (rest : List Cell) :
    cellsRead ((k, v) :: rest) k = v := by simp [cellsRead]

theorem cellsRead_cons_of_ne {k a : Nat} (v : Word) (rest : List Cell) (h : k ≠ a) :
    cellsRead ((k, v) :: rest) a = cellsRead rest a := by simp [cellsRead, h]

/-- Canonical cells list nothing below their bound. -/
theorem cellsRead_of_lt {cells : List Cell} {lo a : Nat} (h : cellsWf lo cells = true) (ha : a < lo) :
    cellsRead cells a = Memory.unlisted := by
  induction cells generalizing lo with
  | nil => rfl
  | cons c rest ih =>
    obtain ⟨hlo, -, -, hrest⟩ := (cellsWf_cons_iff ..).1 h
    rw [cellsRead_cons_of_ne _ _ (by omega), ih hrest (by omega)]

/-- The first cell of canonical cells has the least address that reads as something listed. -/
theorem head_le_of_cellsRead_ne {lo k a : Nat} {v : Word} {rest : List Cell}
    (h : cellsWf lo ((k, v) :: rest) = true) (ha : cellsRead ((k, v) :: rest) a ≠ Memory.unlisted) : k ≤ a := by
  obtain ⟨-, hk, hv, hrest⟩ := (cellsWf_cons_iff ..).1 h
  by_contra hlt
  exact ha (cellsRead_of_lt ((cellsWf_cons_iff k k v rest).2 ⟨le_rfl, hk, hv, hrest⟩) (by omega))

/-- Canonical cells are determined by what they read as in the address space. -/
theorem cells_eq_of_cellsRead_eq {cs ds : List Cell} {lo : Nat} (hc : cellsWf lo cs = true)
    (hd : cellsWf lo ds = true) (h : ∀ a < wordCount, cellsRead cs a = cellsRead ds a) : cs = ds := by
  induction cs generalizing ds lo with
  | nil =>
    cases ds with
    | nil => rfl
    | cons d ds =>
      obtain ⟨l, w⟩ := d
      obtain ⟨-, hl, hw, -⟩ := (cellsWf_cons_iff ..).1 hd
      exact absurd (by simpa using (h l hl).symm) hw
  | cons c cs ih =>
    obtain ⟨k, v⟩ := c
    obtain ⟨-, hk, hv, hcs⟩ := (cellsWf_cons_iff ..).1 hc
    cases ds with
    | nil => exact absurd (by simpa using h k hk) hv
    | cons d ds =>
      obtain ⟨l, w⟩ := d
      obtain ⟨-, hl, hw, hds⟩ := (cellsWf_cons_iff ..).1 hd
      have hlk : l ≤ k := head_le_of_cellsRead_ne hd (by rwa [← h k hk, cellsRead_cons_self])
      have hkl : k ≤ l := head_le_of_cellsRead_ne hc (by rwa [h l hl, cellsRead_cons_self])
      obtain rfl : k = l := le_antisymm hkl hlk
      obtain rfl : v = w := by simpa using h k hk
      have hrest : ∀ a < wordCount, cellsRead cs a = cellsRead ds a := by
        intro a ha
        by_cases hka : k = a
        · rw [cellsRead_of_lt hcs (by omega), cellsRead_of_lt hds (by omega)]
        · simpa only [cellsRead_cons_of_ne _ _ hka] using h a ha
      rw [ih hcs hds hrest]

/-- Settles O14: every address of the address space is a word, so the two lists of cells read alike there. -/
theorem canonicalMemoryIsUnique : Obligations.CanonicalMemoryIsUnique := by
  rintro ⟨cs⟩ ⟨ds⟩ hm hn h
  have hread : ∀ a < wordCount, cellsRead cs a = cellsRead ds a := fun a ha => by
    simpa [Memory.read, Nat.mod_eq_of_lt ha] using h (BitVec.ofNat 16 a)
  exact congrArg Memory.mk (cells_eq_of_cellsRead_eq hm hn hread)

/-! ### The flag of a value, by its sign -/

theorem flagOf_eq_flagZ_iff (v : Word) : flagOf v = flagZ ↔ v = 0#16 := by
  rw [flagOf_eq]
  by_cases hz : v = 0#16
  · simp [hz]
  · cases hm : v.msb <;> simp [hz, flagZ, flagN, flagP]

theorem flagOf_eq_flagN_iff (v : Word) : flagOf v = flagN ↔ v.toInt < 0 := by
  rw [flagOf_eq, BitVec.msb_eq_toInt]
  by_cases hz : v = 0#16
  · simp [hz, flagZ, flagN]
  · by_cases hn : v.toInt < 0
    · simp [hz, hn]
    · simp [hz, hn, flagN, flagP]

theorem flagOf_eq_flagP_iff (v : Word) : flagOf v = flagP ↔ 0 < v.toInt := by
  rw [flagOf_eq, BitVec.msb_eq_toInt]
  by_cases hz : v = 0#16
  · simp [hz, flagZ, flagP]
  · have hne : v.toInt ≠ 0 := fun e => hz (BitVec.toInt_inj.1 e)
    by_cases hn : v.toInt < 0
    · simpa [hz, hn, flagN, flagP] using hn.le
    · simpa [hz, hn] using lt_of_le_of_ne (not_lt.1 hn) hne.symm

/-! ### What a step does to COND and the registers -/

/-- A flag-setting instruction completes by writing a result to its destination (R107). -/
theorem exec_of_setsFlags (i : Instr) (s : State) (h : i.setsFlags = true) :
    ∃ dr r, i.writesReg? = some dr ∧ exec i s = .next (s.advance.writeResult dr r) := by
  cases i
  case addReg | addImm | andReg | andImm | not | ld | ldi | ldr | lea => exact ⟨_, _, rfl, rfl⟩
  all_goals cases h

/-- Settles O23: COND is the flag of the result, and the result is what the destination reads as. -/
theorem flagSettersLeaveOneFlag : Obligations.FlagSettersLeaveOneFlag := by
  intro i s h
  obtain ⟨dr, r, hw, he⟩ := exec_of_setsFlags i s h
  refine ⟨_, dr, he, hw, ?_⟩
  rw [writeResult_cond, reg_writeResult_same]
  exact ⟨oneHot_flagOf r, flagOf_eq_flagZ_iff r, flagOf_eq_flagN_iff r, flagOf_eq_flagP_iff r⟩

/-- Only words with opcode 0xF decode to TRAP. -/
theorem opcode_of_decode_trap {w : Word} {high4 : BitVec 4} {vec : BitVec 8} (h : decode w = .trap high4 vec) :
    w.extractLsb' 12 4 = 0xF#4 := by
  have hc := decode_cases w
  simp only [h, reduceCtorEq, and_false, false_or] at hc
  exact hc.1

/-- Settles O22: a step that is not a TRAP leaves COND or sets it to the flag of a result. -/
theorem oneHotCondKept : Obligations.OneHotCondKept := by
  intro s t hc hop h
  obtain ⟨dr, r, -, -, -, rfl⟩ | ⟨target, -, -, -, rfl⟩ | ⟨target, -, -, -, rfl⟩ | ⟨a, v, -, -, -, rfl⟩ |
    ⟨high4, vec, writes, hi, -, -⟩ := exec_next _ s t h
  · exact oneHot_flagOf r
  · simpa using hc
  · simpa using hc
  · simpa using hc
  · exact absurd (opcode_of_decode_trap hi) hop

/-- Settles O26: by the kind of instruction, the step writes R[DR], nothing, the link R7, or nothing. -/
theorem registersWrittenByTable : Obligations.RegistersWrittenByTable := by
  intro s t hop h
  obtain ⟨dr, r, -, -, hw, rfl⟩ | ⟨target, -, -, -, rfl⟩ | ⟨target, -, -, hw, rfl⟩ | ⟨a, v, -, -, -, rfl⟩ |
    ⟨high4, vec, writes, hi, -, -⟩ := exec_next _ s t h
  · rw [hw]
    exact ⟨fun j hj => reg_writeResult_other _ _ _ _ (by simpa using hj), rfl, rfl⟩
  · exact ⟨fun j _ => rfl, rfl, rfl⟩
  · rw [hw]
    exact ⟨fun j hj => reg_link_other _ _ (by simpa using hj), rfl, rfl⟩
  · exact ⟨fun j _ => rfl, rfl, rfl⟩
  · exact absurd (opcode_of_decode_trap hi) hop

end Sys2Proof.Machine

/-! PROOFS. Memory: what a read gives after a write, what each kind of step does to memory, and its canonical form
(20_memory.md, 44_loadstore.md). -/

namespace Sys2Proof.Machine

/-! ### Reads after a store -/

/-- A memory read after a memory write, in any memory, canonical or not. -/
theorem load_store (s : State) (a b v : Word) : (s.store a v).load b = if b = a then v else s.load b := by
  by_cases h : b = a
  · subst h; simp
  · simp [load_store_other, h]

/-- A word stored at the PC is the one fetched (R53). -/
theorem fetch_store_pc (s : State) (v : Word) : (s.store s.pc v).fetch = v := load_store_same s s.pc v

/-- Advancing the PC and storing a word is the effect `Stored` names: its word, its frame, nothing else. -/
theorem stored_advance_store (s : State) (a v : Word) : Stored a v s (s.advance.store a v) :=
  ⟨load_store_same _ _ _, fun b hb => load_store_other _ _ _ _ (by simpa using hb), rfl, rfl, fun _ _ => rfl, rfl, rfl⟩

/-- Settles O13: the read-after-write law of the store. -/
theorem memoryReadAfterWrite : Obligations.MemoryReadAfterWrite := load_store

/-! ### The three store steps -/

section
variable {s : State} {sr : RegId}

/-- A step that runs ST stores the source register at the PC-relative address (R164). -/
theorem step_st {off : BitVec 9} (h : decode s.fetch = .st sr off) :
    step s = .next (s.advance.store (s.advance.pcRelative off) (s.reg sr)) := by
  rw [step, h]; rfl

/-- A step that runs STI stores the source register at the pointer (R165). -/
theorem step_sti {off : BitVec 9} (h : decode s.fetch = .sti sr off) :
    step s = .next (s.advance.store (s.advance.indirect off) (s.reg sr)) := by
  rw [step, h]; rfl

/-- A step that runs STR stores the source register at base + offset (R166). -/
theorem step_str {baseR : RegId} {off : BitVec 6} (h : decode s.fetch = .str sr baseR off) :
    step s = .next (s.advance.store (s.advance.baseOffset baseR off) (s.reg sr)) := by
  rw [step, h]; rfl

/-- A step that stores at `a` puts its word there and leaves every other word (R46). -/
theorem oneWord_of_step_store {a v : Word} (h : step s = .next (s.advance.store a v)) :
    ∃ t, step s = .next t ∧ t.load a = v ∧ MemSameExcept [a] s t :=
  have ⟨hload, hframe, _⟩ := stored_advance_store s a v
  ⟨_, h, hload, hframe⟩

/-- A step that stores at the advanced PC is followed by the step that runs the stored word (R53, R224). -/
theorem nextStep_of_step_store_pc {v : Word} (h : step s = .next (s.advance.store s.advance.pc v)) :
    ∃ t, step s = .next t ∧ t.fetch = v ∧ step t = exec (decode v) t :=
  have hfetch := fetch_store_pc s.advance v
  ⟨_, h, hfetch, by rw [step, hfetch]⟩

end

/-- Settles O28: each store form is a store at its operand's address. -/
theorem storesChangeOneWord : Obligations.StoresChangeOneWord := fun _ _ =>
  ⟨fun _ h => oneWord_of_step_store (step_st h), fun _ h => oneWord_of_step_store (step_sti h),
    fun _ _ h => oneWord_of_step_store (step_str h)⟩

/-- Settles O17: each store form is a store at the address given, which is the advanced PC. -/
theorem storeSeenByNextFetch : Obligations.StoreSeenByNextFetch := by
  intro s i addr sr hi hform haddr
  have hpc : s.advance.pc = addr := haddr.symm
  apply nextStep_of_step_store_pc
  rw [hpc]
  obtain ⟨off, rfl, rfl⟩ | ⟨off, rfl, rfl⟩ | ⟨baseR, off, rfl, rfl⟩ := hform
  · exact step_st hi
  · exact step_sti hi
  · exact step_str hi

/-! ### Steps that leave memory -/

/-- An instruction that is neither a store nor TRAP leaves the memory, as data (R49). -/
theorem exec_mem_of_not_isStore {i : Instr} {s t : State} (hs : i.isStore = false) (ht : ∀ high4 vec, i ≠ .trap high4 vec)
    (h : exec i s = .next t) : t.mem = s.mem := by
  obtain ⟨dr, r, -, -, -, rfl⟩ | ⟨target, -, -, -, rfl⟩ | ⟨target, -, -, -, rfl⟩ | ⟨a, v, -, hstore, -, -⟩ |
    ⟨high4, vec, writes, hi, -, -⟩ := exec_next i s t h
  · simp
  · simp
  · simp
  · simp [hs] at hstore
  · exact absurd hi (ht high4 vec)

/-- Settles O27: only words with opcode 0xF decode to TRAP, and the other non-stores leave the memory. -/
theorem onlyStoresAndTrapWriteMemory : Obligations.OnlyStoresAndTrapWriteMemory := by
  intro s t hop hs h a _
  have hmem : t.mem = s.mem :=
    exec_mem_of_not_isStore hs (fun _ _ hi => hop (opcode_of_decode_trap hi)) h
  rw [State.load, hmem, State.load]

/-! ### The canonical form -/

/-- What an instruction leaves at its next state is canonical if memory was: by the kind of instruction, memory is the same,
one word is stored, or the dispatcher's writes are applied. -/
theorem exec_next_memCanonical {i : Instr} {s t : State} (hs : s.MemCanonical) (h : exec i s = .next t) :
    t.MemCanonical := by
  obtain ⟨dr, r, -, -, -, rfl⟩ | ⟨target, -, -, -, rfl⟩ | ⟨target, -, -, -, rfl⟩ | ⟨a, v, -, -, -, rfl⟩ |
    ⟨high4, vec, writes, -, -, rfl⟩ := exec_next i s t h
  · exact hs
  · exact hs
  · exact hs
  · exact Memory.wf_write _ _ _ hs
  · exact applyWrites_wf _ _ hs

/-- Halt comes from TRAP alone, and carries the state that the dispatcher's writes lead to (R183). -/
theorem exec_halt {i : Instr} {s f : State} (h : exec i s = .fault (.halt f)) :
    ∃ writes, s.advance.nextTrapReply (encode i) = .returns writes .halt ∧
      f = s.advance.countTrap.applyWrites writes := by
  obtain ⟨high4, vec, -, htrap⟩ | ⟨-, hengine⟩ := exec_fault i s _ h
  · obtain ⟨writes, hreply, hf⟩ | ⟨-, hstuck⟩ := trapDelegate_fault _ _ _ htrap
    · exact ⟨writes, hreply, by simpa using hf⟩
    · cases hstuck
  · cases hengine

/-- Settles O16: a next state by the kind of instruction, a halted one because the dispatcher's writes keep the form. -/
theorem stepKeepsMemoryCanonical : Obligations.StepKeepsMemoryCanonical := by
  intro s hs
  refine ⟨fun t h => exec_next_memCanonical hs h, fun f h => ?_⟩
  obtain ⟨writes, -, rfl⟩ := exec_halt h
  exact applyWrites_wf _ _ hs

end Sys2Proof.Machine

/-! PROOFS. Encoding and decoding (30_encoding.md): how a placed field reads back, the word as the sum of its fields,
and what follows for the decoder, the encoder and the table's rows. -/

namespace Sys2Proof

/-! ### Reading a placed field -/

@[simp] theorem getLsbD_place {n : Nat} (v : BitVec n) (lo i : Nat) :
    (place v lo).getLsbD i = (decide (i < 16) && (decide (lo ≤ i) && v.getLsbD (i - lo))) := by
  by_cases hlo : lo ≤ i
  · by_cases h : i < 16
    · simp [place, h, hlo, Nat.not_lt.2 hlo]
    · rw [BitVec.getLsbD_of_ge _ _ (Nat.le_of_not_lt h)]
      simp [h]
  · simp [place, hlo, Nat.lt_of_not_le hlo]

@[simp] theorem getElem_place {n : Nat} (v : BitVec n) (lo i : Nat) (h : i < 16) :
    (place v lo)[i] = (decide (lo ≤ i) && v.getLsbD (i - lo)) := by
  rw [← BitVec.getLsbD_eq_getElem, getLsbD_place]
  simp [h]

/-- A placed field reads back whole. -/
@[simp] theorem extractLsb'_place_same {n : Nat} (v : BitVec n) (lo : Nat) (h : lo + n ≤ 16) :
    (place v lo).extractLsb' lo n = v := by
  apply BitVec.eq_of_getLsbD_eq
  intro i hi
  simp [hi, show lo + i < 16 by omega]

/-- A field placed above reads as 0. -/
@[simp] theorem extractLsb'_place_above {n start len : Nat} (v : BitVec n) (lo : Nat) (h : start + len ≤ lo) :
    (place v lo).extractLsb' start len = 0#len := by
  apply BitVec.eq_of_getLsbD_eq
  intro i hi
  simp [show ¬ lo ≤ start + i by omega]

/-- A field placed below reads as 0. -/
@[simp] theorem extractLsb'_place_below {n start len : Nat} (v : BitVec n) (lo : Nat) (h : lo + n ≤ start) :
    (place v lo).extractLsb' start len = 0#len := by
  apply BitVec.eq_of_getLsbD_eq
  intro i hi
  simp [show n ≤ start + i - lo by omega]

/-- Settles O2: each row's fields lie apart, so the opcode, the form bit and every operand read back as encoded. -/
theorem decodeOfEncode : Obligations.DecodeOfEncode := by
  intro i
  cases i
  case addReg => simp [encode, Opcode.code, decode_add_reg, BitVec.extractLsb'_or]
  case addImm => simp [encode, Opcode.code, decode_add_imm, BitVec.extractLsb'_or]
  case andReg => simp [encode, Opcode.code, decode_and_reg, BitVec.extractLsb'_or]
  case andImm => simp [encode, Opcode.code, decode_and_imm, BitVec.extractLsb'_or]
  case not => simp [encode, Opcode.code, decode_not, BitVec.extractLsb'_or]
  case br => simp [encode, Opcode.code, decode_br, BitVec.extractLsb'_or]
  case jmp => simp [encode, Opcode.code, decode_jmp, BitVec.extractLsb'_or]
  case jsr => simp [encode, Opcode.code, decode_jsr, BitVec.extractLsb'_or]
  case jsrr => simp [encode, Opcode.code, decode_jsrr, BitVec.extractLsb'_or]
  case ld => simp [encode, Opcode.code, decode_ld, BitVec.extractLsb'_or]
  case ldi => simp [encode, Opcode.code, decode_ldi, BitVec.extractLsb'_or]
  case ldr => simp [encode, Opcode.code, decode_ldr, BitVec.extractLsb'_or]
  case lea => simp [encode, Opcode.code, decode_lea, BitVec.extractLsb'_or]
  case st => simp [encode, Opcode.code, decode_st, BitVec.extractLsb'_or]
  case sti => simp [encode, Opcode.code, decode_sti, BitVec.extractLsb'_or]
  case str => simp [encode, Opcode.code, decode_str, BitVec.extractLsb'_or]
  case trap => simp [encode, Opcode.code, decode_trap, BitVec.extractLsb'_or]
  case reserved8 => simp [encode, Opcode.code, decode_reserved8, BitVec.extractLsb'_or]
  case reservedD => simp [encode, Opcode.code, decode_reservedD, BitVec.extractLsb'_or]

/-- No two instructions share a word. -/
theorem encode_injective : Function.Injective encode := Function.LeftInverse.injective decodeOfEncode

/-! ### A word by its fields -/

/-- The mask of the `n`-bit field whose lowest bit is `lo`. -/
def fieldMask (lo n : Nat) : Word := place (BitVec.allOnes n) lo

/-- Cutting a field out and putting it back keeps exactly its bits. -/
theorem place_extractLsb' (w : Word) (lo n : Nat) : place (w.extractLsb' lo n) lo = w &&& fieldMask lo n := by
  apply BitVec.eq_of_getLsbD_eq
  intro i hi
  by_cases hlo : lo ≤ i
  · simp [fieldMask, hi, hlo, Bool.and_comm]
  · simp [fieldMask, hlo]

/-- A field with a known value, put back: the field's bits of the word. -/
theorem place_of_extractLsb' {w : Word} {lo n : Nat} {v : BitVec n} (h : w.extractLsb' lo n = v) :
    place v lo = w &&& fieldMask lo n := by rw [← h, place_extractLsb']

/-- A one-bit field is the bit. -/
theorem extractLsb'_one (w : Word) (k : Nat) : w.extractLsb' k 1 = BitVec.ofBool (w.getLsbD k) := by
  apply BitVec.eq_of_getLsbD_eq
  intro i hi
  obtain rfl : i = 0 := by omega
  simp

/-- A known bit, put back. -/
theorem place_of_getLsbD {w : Word} {k : Nat} {b : Bool} (h : w.getLsbD k = b) :
    place (BitVec.ofBool b) k = w &&& fieldMask k 1 := place_of_extractLsb' (by rw [extractLsb'_one, h])

/-- A mask may as well keep a bit that is 0. -/
theorem and_or_of_getLsbD_false {w : Word} {k : Nat} (m : Word) (h : w.getLsbD k = false) :
    w &&& (m ||| fieldMask k 1) = w &&& m := by
  rw [BitVec.and_or_distrib_left, ← place_of_getLsbD h]
  simp [place]

/-- What is set anyway need not be kept. -/
theorem and_not_or_self (w m : Word) : w &&& ~~~m ||| m = w ||| m := by
  ext i hi
  cases hm : m[i] <;> simp [hm]

/-! ### The formats of R63: a word with opcode `op` by its fields -/

section
variable {w : Word} {op : BitVec 4} (ho : w.extractLsb' 12 4 = op)
include ho

/-- BR, LD, LDI, LEA, ST, STI. -/
theorem place_regOffset9 : place op 12 ||| place (w.extractLsb' 9 3) 9 ||| place (w.extractLsb' 0 9) 0 = w := by
  simp only [place_of_extractLsb' ho, place_extractLsb', ← BitVec.and_or_distrib_left]
  exact BitVec.and_allOnes

/-- LDR, STR. -/
theorem place_regBaseOffset6 :
    place op 12 ||| place (w.extractLsb' 9 3) 9 ||| place (w.extractLsb' 6 3) 6 ||| place (w.extractLsb' 0 6) 0 = w := by
  simp only [place_of_extractLsb' ho, place_extractLsb', ← BitVec.and_or_distrib_left]
  exact BitVec.and_allOnes

/-- ADD and AND, immediate form. -/
theorem place_regRegImm5 (h5 : w.getLsbD 5 = true) :
    place op 12 ||| place (w.extractLsb' 9 3) 9 ||| place (w.extractLsb' 6 3) 6 ||| place 1#1 5 |||
      place (w.extractLsb' 0 5) 0 = w := by
  have hbit : place 1#1 5 = w &&& fieldMask 5 1 := place_of_getLsbD h5
  simp only [hbit, place_of_extractLsb' ho, place_extractLsb', ← BitVec.and_or_distrib_left]
  exact BitVec.and_allOnes

/-- JSR. -/
theorem place_offset11 (h11 : w.getLsbD 11 = true) :
    place op 12 ||| place 1#1 11 ||| place (w.extractLsb' 0 11) 0 = w := by
  have hbit : place 1#1 11 = w &&& fieldMask 11 1 := place_of_getLsbD h11
  simp only [hbit, place_of_extractLsb' ho, place_extractLsb', ← BitVec.and_or_distrib_left]
  exact BitVec.and_allOnes

/-- TRAP. -/
theorem place_high4Vect8 : place op 12 ||| place (w.extractLsb' 8 4) 8 ||| place (w.extractLsb' 0 8) 0 = w := by
  simp only [place_of_extractLsb' ho, place_extractLsb', ← BitVec.and_or_distrib_left]
  exact BitVec.and_allOnes

/-- The reserved rows. -/
theorem place_low12 : place op 12 ||| place (w.extractLsb' 0 12) 0 = w := by
  simp only [place_of_extractLsb' ho, place_extractLsb', ← BitVec.and_or_distrib_left]
  exact BitVec.and_allOnes

/-- ADD and AND, register form: IR[4:3] is cleared. -/
theorem place_regRegReg (h5 : w.getLsbD 5 = false) :
    place op 12 ||| place (w.extractLsb' 9 3) 9 ||| place (w.extractLsb' 6 3) 6 ||| place (w.extractLsb' 0 3) 0 =
      w &&& 0xFFE7#16 := by
  simp only [place_of_extractLsb' ho, place_extractLsb', ← BitVec.and_or_distrib_left]
  exact (and_or_of_getLsbD_false _ h5).symm

/-- NOT: IR[5:0] is set. -/
theorem place_regReg :
    place op 12 ||| place (w.extractLsb' 9 3) 9 ||| place (w.extractLsb' 6 3) 6 ||| place 0x3F#6 0 =
      w &&& 0xFFC0#16 ||| 0x003F#16 := by
  simp only [place_of_extractLsb' ho, place_extractLsb', ← BitVec.and_or_distrib_left]
  rfl

/-- JMP: IR[11:9] and IR[5:0] are cleared. -/
theorem place_base : place op 12 ||| place (w.extractLsb' 6 3) 6 = w &&& 0xF1C0#16 := by
  simp only [place_of_extractLsb' ho, place_extractLsb', ← BitVec.and_or_distrib_left]
  rfl

/-- JSRR: IR[10:9] and IR[5:0] are cleared. -/
theorem place_linkBase (h11 : w.getLsbD 11 = false) :
    place op 12 ||| place (w.extractLsb' 6 3) 6 = w &&& 0xF9C0#16 :=
  (place_base ho).trans (and_or_of_getLsbD_false _ h11).symm

end

/-- Settles O3: each row of `decode_cases` is encoded by its format, which keeps the bits that the row reads. -/
theorem encodeOfDecode : Obligations.EncodeOfDecode := by
  intro w
  obtain ⟨ho, hd⟩ | ⟨ho, h5, hd⟩ | ⟨ho, h5, hd⟩ | ⟨ho, hd⟩ | ⟨ho, hd⟩ | ⟨ho, h11, hd⟩ | ⟨ho, h11, hd⟩ | ⟨ho, h5, hd⟩ |
    ⟨ho, h5, hd⟩ | ⟨ho, hd⟩ | ⟨ho, hd⟩ | ⟨ho, hd⟩ | ⟨ho, hd⟩ | ⟨ho, hd⟩ | ⟨ho, hd⟩ | ⟨ho, hd⟩ | ⟨ho, hd⟩ | ⟨ho, hd⟩ |
    ⟨ho, hd⟩ := decode_cases w <;> rw [hd]
  · exact place_regOffset9 ho
  · exact place_regRegReg ho h5
  · exact place_regRegImm5 ho h5
  · exact place_regOffset9 ho
  · exact place_regOffset9 ho
  · exact place_offset11 ho h11
  · exact place_linkBase ho h11
  · exact place_regRegReg ho h5
  · exact place_regRegImm5 ho h5
  · exact place_regBaseOffset6 ho
  · exact place_regBaseOffset6 ho
  · exact place_low12 ho
  · exact (place_regReg ho).trans (and_not_or_self w 0x003F#16)
  · exact place_regOffset9 ho
  · exact place_regOffset9 ho
  · exact place_base ho
  · exact place_low12 ho
  · exact place_regOffset9 ho
  · exact place_high4Vect8 ho

/-! ### Words under a mask -/

/-- Words that agree on a mask agree on a smaller one. -/
theorem and_eq_of_and_eq {w v m k : Word} (hk : m &&& k = k) (h : w &&& m = v &&& m) : w &&& k = v &&& k := by
  rw [← hk, ← BitVec.and_assoc, ← BitVec.and_assoc, h]

/-- Words agree on a field's mask exactly when they agree on the field. -/
theorem and_fieldMask_eq_iff {w v : Word} {lo n : Nat} (h : lo + n ≤ 16) :
    w &&& fieldMask lo n = v &&& fieldMask lo n ↔ w.extractLsb' lo n = v.extractLsb' lo n := by
  rw [← place_extractLsb', ← place_extractLsb']
  exact ⟨fun e => by simpa [h] using congrArg (BitVec.extractLsb' lo n) e, congrArg (place · lo)⟩

/-- Words agree on a bit's mask exactly when they agree on the bit. -/
theorem and_bitMask_eq_iff {w v : Word} {k : Nat} (h : k < 16) :
    w &&& fieldMask k 1 = v &&& fieldMask k 1 ↔ w.getLsbD k = v.getLsbD k := by
  rw [and_fieldMask_eq_iff h, extractLsb'_one, extractLsb'_one]
  exact ⟨fun e => by simpa using congrArg BitVec.msb e, congrArg BitVec.ofBool⟩

/-- The mask 0xF000 tests the opcode. -/
theorem and_F000_eq_iff {w p : Word} (hp : p &&& 0xF000#16 = p) :
    w &&& 0xF000#16 = p ↔ w.extractLsb' 12 4 = p.extractLsb' 12 4 := by
  conv_lhs => rw [← hp]
  exact and_fieldMask_eq_iff (lo := 12) (n := 4) (by decide)

/-- A mask of the opcode and bit `k` tests both. -/
theorem and_opcodeBit_eq_iff {w p m : Word} {k : Nat} (hk : k < 16) (hm : m = 0xF000#16 ||| fieldMask k 1)
    (hop : m &&& 0xF000#16 = 0xF000#16) (hbit : m &&& fieldMask k 1 = fieldMask k 1) (hp : p &&& m = p) :
    w &&& m = p ↔ w.extractLsb' 12 4 = p.extractLsb' 12 4 ∧ w.getLsbD k = p.getLsbD k := by
  rw [← and_fieldMask_eq_iff (by decide), ← and_bitMask_eq_iff hk]
  constructor
  · intro h
    rw [← hp] at h
    exact ⟨and_eq_of_and_eq hop h, and_eq_of_and_eq hbit h⟩
  · rintro ⟨ho, hb⟩
    rw [← hp, hm, BitVec.and_or_distrib_left, BitVec.and_or_distrib_left, hb]
    exact congrArg (· ||| _) ho

/-- The mask 0xF020 tests the opcode and the form bit IR[5] (R120 to R123). -/
theorem and_F020_eq_iff {w p : Word} (hp : p &&& 0xF020#16 = p) :
    w &&& 0xF020#16 = p ↔ w.extractLsb' 12 4 = p.extractLsb' 12 4 ∧ w.getLsbD 5 = p.getLsbD 5 :=
  and_opcodeBit_eq_iff (by decide) (by decide) (by decide) (by decide) hp

/-- The mask 0xF800 tests the opcode and longFlag IR[11] (R145, R147). -/
theorem and_F800_eq_iff {w p : Word} (hp : p &&& 0xF800#16 = p) :
    w &&& 0xF800#16 = p ↔ w.extractLsb' 12 4 = p.extractLsb' 12 4 ∧ w.getLsbD 11 = p.getLsbD 11 :=
  and_opcodeBit_eq_iff (by decide) (by decide) (by decide) (by decide) hp

/-! ### Ignored bits -/

/-- If the words with pattern `p` under `k` are encoded from what they hold under `m`, the bits outside `m` do not matter. -/
theorem decode_eq_of_and_eq {m k p : Word} (g : Word → Word)
    (henc : ∀ u, u &&& k = p → encode (decode u) = g (u &&& m)) (hk : m &&& k = k) {w v : Word}
    (hw : w &&& k = p) (hv : v &&& m = w &&& m) : decode v = decode w := by
  apply encode_injective
  rw [henc v ((and_eq_of_and_eq hk hv).trans hw), henc w hw, hv]

/-- The mask 0xB020 leaves ADD and AND together, in register form (R120, R122). -/
theorem opcode_of_and_B020 {w : Word} (h : w &&& 0xB020#16 = 0x1000#16) :
    (w.extractLsb' 12 4 = 0x1#4 ∨ w.extractLsb' 12 4 = 0x5#4) ∧ w.getLsbD 5 = false := by
  have hop : w.extractLsb' 12 4 &&& 0xB#4 = 0x1#4 := by
    simpa [BitVec.extractLsb'_and] using congrArg (BitVec.extractLsb' 12 4) h
  have hbit : w.getLsbD 5 = false := by simpa using congrArg (BitVec.getLsbD · 5) h
  have key : ∀ x : BitVec 4, x &&& 0xB#4 = 0x1#4 → x = 0x1#4 ∨ x = 0x5#4 := by decide
  exact ⟨key _ hop, hbit⟩

theorem encode_decode_of_and_B020 (w : Word) (h : w &&& 0xB020#16 = 0x1000#16) :
    encode (decode w) = w &&& 0xFFE7#16 := by
  obtain ⟨ho | ho, h5⟩ := opcode_of_and_B020 h
  · rw [decode_add_reg w ho h5]; exact place_regRegReg ho h5
  · rw [decode_and_reg w ho h5]; exact place_regRegReg ho h5

theorem encode_decode_of_not (w : Word) (h : w &&& 0xF000#16 = 0x9000#16) :
    encode (decode w) = w &&& 0xFFC0#16 ||| 0x003F#16 := by
  have ho : w.extractLsb' 12 4 = 0x9#4 := (and_F000_eq_iff (by decide)).1 h
  rw [decode_not w ho]; exact place_regReg ho

theorem encode_decode_of_jmp (w : Word) (h : w &&& 0xF000#16 = 0xC000#16) : encode (decode w) = w &&& 0xF1C0#16 := by
  have ho : w.extractLsb' 12 4 = 0xC#4 := (and_F000_eq_iff (by decide)).1 h
  rw [decode_jmp w ho]; exact place_base ho

theorem encode_decode_of_jsrr (w : Word) (h : w &&& 0xF800#16 = 0x4000#16) : encode (decode w) = w &&& 0xF9C0#16 := by
  obtain ⟨ho, h11⟩ : w.extractLsb' 12 4 = 0x4#4 ∧ w.getLsbD 11 = false := (and_F800_eq_iff (by decide)).1 h
  rw [decode_jsrr w ho h11]; exact place_linkBase ho h11

/-- Settles O4: each of the rows is encoded from the bits outside its ignored ones, and encode is injective. -/
theorem decodeIgnoresFillerBits : Obligations.DecodeIgnoresFillerBits := fun _ _ =>
  ⟨decode_eq_of_and_eq id encode_decode_of_and_B020 (by decide),
    decode_eq_of_and_eq (· ||| 0x003F#16) encode_decode_of_not (by decide),
    decode_eq_of_and_eq id encode_decode_of_jmp (by decide),
    decode_eq_of_and_eq id encode_decode_of_jsrr (by decide)⟩

/-! ### The table's rows -/

theorem Row.has_iff (r : Row) (w : Word) : r.has w = true ↔ w &&& r.mask = r.pattern := beq_iff_eq

/-- Settles O5: the masks test the opcode and, for 0x1, 0x4 and 0x5, one further bit, which `decode_cases` gives. -/
theorem rowsPartitionWords : Obligations.RowsPartitionWords := by
  intro w
  obtain h | h | h | h | h | h | h | h | h | h | h | h | h | h | h | h | h | h | h := decode_cases w <;>
    simp [encodingTable, Instr.row, Row.has_iff, and_F000_eq_iff, and_F020_eq_iff, and_F800_eq_iff, h,
      -BitVec.getLsbD_eq_getElem]

/-- Settles O6: `decode_cases` gives the reserved rows to these two opcodes alone. -/
theorem reservedWordsByOpcode : Obligations.ReservedWordsByOpcode := by
  intro w
  have hc := decode_cases w
  refine ⟨⟨fun ⟨low, h⟩ => ?_, fun ho => ⟨_, decode_reserved8 w ho⟩⟩,
    ⟨fun ⟨low, h⟩ => ?_, fun ho => ⟨_, decode_reservedD w ho⟩⟩⟩
  all_goals
    simp only [h, reduceCtorEq, and_false, false_or, or_false] at hc
    exact hc.1

/-! ### Sample words -/

/-- Settles O1: each word has its row's opcode and form bit, and the fields cut out of it are the operands named. -/
theorem decodesSampleWords : Obligations.DecodesSampleWords :=
  ⟨decode_add_reg _ rfl rfl, decode_add_imm _ rfl rfl, decode_and_reg _ rfl rfl, decode_br _ rfl, decode_jmp _ rfl,
    decode_jsr _ rfl rfl, decode_jsrr _ rfl rfl, decode_ldi _ rfl, decode_ldr _ rfl, decode_str _ rfl, decode_trap _ rfl,
    decode_reserved8 _ rfl⟩

end Sys2Proof

/-! PROOFS. No instruction is refused, and BR with offset 0 (30_encoding.md R68, R69). -/

namespace Sys2Proof.Machine

/-- exec gives every instruction a meaning: each arm but TRAP's answers by its form, and the delegation never refuses. -/
theorem exec_ne_refused (i : Instr) (s : State) (r : Refusal) : exec i s ≠ .refused r := by
  cases i
  case trap => exact trapDelegate_ne_refused _ _ r
  all_goals nofun

/-- Settles O25: a step is exec of some instruction. -/
theorem stepNeverRefuses : Obligations.StepNeverRefuses := fun s r => exec_ne_refused (decode s.fetch) s r

/-- Taken or not, BR with offset 0 goes on at the advanced PC (R68). -/
theorem exec_br_zero (nzp : Cond) (s : State) : exec (.br nzp 0) s = .next s.advance := by
  have htarget : s.advance.pcRelative 0 = s.advance.pc := by simp [State.pcRelative]
  have hpc : s.advance.setPc s.advance.pc = s.advance := rfl
  simp only [exec, execBr, htarget, hpc, ite_self]

/-- Settles O35: 0x0000 has opcode BR and fields 0, and the advanced state is a jump to the next word. -/
theorem branchOffsetZeroIsNop : Obligations.BranchOffsetZeroIsNop :=
  ⟨decode_br _ rfl, fun nzp s => ⟨_, exec_br_zero nzp s, rfl, rfl, fun _ _ => rfl, fun _ _ => rfl, rfl, rfl⟩⟩

end Sys2Proof.Machine

/-! PROOFS. The bit-field primitives, bit by bit and as signed values (40_bitfield.md). -/

namespace Sys2Proof.Bits

/-! ### Bit by bit -/

/-- The word setBit and clearBit use as a mask has bit `n` alone set. -/
theorem getLsbD_one_shiftLeft (n i : Nat) (h : n ≤ 15) : (1#16 <<< n).getLsbD i = decide (i = n) := by
  rw [← BitVec.twoPow_eq, BitVec.getLsbD_twoPow]
  simp [show n < 16 by omega, eq_comm]

/-- setBit forces bit `n` to 1 (R82). -/
theorem getLsbD_setBit (w : Word) (n i : Nat) (h : n ≤ 15) :
    (setBit w n h).getLsbD i = (w.getLsbD i || decide (i = n)) := by
  rw [setBit, BitVec.getLsbD_or, getLsbD_one_shiftLeft n i h]

/-- clearBit forces bit `n` to 0 (R83). -/
theorem getLsbD_clearBit (w : Word) (n i : Nat) (h : n ≤ 15) :
    (clearBit w n h).getLsbD i = (w.getLsbD i && !decide (i = n)) := by
  rw [clearBit, BitVec.getLsbD_and, BitVec.getLsbD_not, getLsbD_one_shiftLeft n i h]
  by_cases hi : i < 16
  · simp [hi]
  · simp [BitVec.getLsbD_of_ge w i (by omega)]

/-- Settles O7: one bit law per primitive. -/
theorem bitPrimitivesByBit : Obligations.BitPrimitivesByBit := fun w n h i =>
  ⟨getBit_eq w n h, getLsbD_setBit w n i h, getLsbD_clearBit w n i h⟩

/-- Settles O8: getBits is the library's field, zero-extended, so it holds bit `start + i` below its width alone. -/
theorem getBitsRightJustified : Obligations.GetBitsRightJustified := by
  intro w start width h i
  rw [getBits_eq_extract, BitVec.getLsbD_setWidth, BitVec.getLsbD_extractLsb']
  by_cases hi : i < width
  · simp [show i < 16 by omega]
  · simp [hi]

/-- Settles O11: both checks compare getBit of bit 15, which is 1 or 0 with the bit. -/
theorem signChecksReadBitFifteen : Obligations.SignChecksReadBitFifteen := by
  intro w
  rw [isNegative, isPositive, getBit_eq]
  cases w.getLsbD 15 <;> simp

/-! ### Sign extension -/

/-- The bits of a sign extension: the field's below its width, its sign bit from there on (R86). -/
theorem getLsbD_signExtend (v : Word) (k i : Nat) (h : 1 ≤ k ∧ k ≤ 16) :
    (signExtend v k h).getLsbD i = (decide (i < 16) && if i < k then v.getLsbD i else v.getLsbD (k - 1)) := by
  rw [signExtend_eq, BitVec.getLsbD_signExtend, BitVec.msb_setWidth, BitVec.getLsbD_setWidth]
  by_cases hi : i < k
  · simp [hi]
  · simp [hi, show 0 < k from h.1]

/-- Masking keeps the low `k` bits. -/
theorem getLsbD_and_mask (v : Word) (k i : Nat) (h : k ≤ 16) :
    (v &&& ((1#16 <<< k) - 1#16)).getLsbD i = (v.getLsbD i && decide (i < k)) := by
  rw [BitVec.getLsbD_and, getLsbD_mask k i h]

/-- The document's second form: keep the field and, if its sign bit is set, set every higher bit (R87). -/
theorem signExtend_eq_mask (v : Word) (k : Nat) (h : 1 ≤ k ∧ k ≤ 16) :
    signExtend v k h = if v.getLsbD (k - 1) then v &&& ((1#16 <<< k) - 1#16) ||| ~~~((1#16 <<< k) - 1#16)
      else v &&& ((1#16 <<< k) - 1#16) := by
  apply BitVec.eq_of_getLsbD_eq
  intro i hi
  rw [getLsbD_signExtend, apply_ite (BitVec.getLsbD · i), BitVec.getLsbD_or, BitVec.getLsbD_not,
    getLsbD_and_mask v k i h.2, getLsbD_mask k i h.2]
  by_cases hik : i < k
  · simp [hik, hi]
  · simp [hik, hi]

/-- Settles O9: the library's sign extension keeps the signed value of the field and sees nothing else of the word. -/
theorem signExtendIsTwosComplement : Obligations.SignExtendIsTwosComplement := by
  intro v k h
  refine ⟨rfl, ?_, fun u hu => ?_, ?_⟩
  · rw [signExtend_eq, BitVec.toInt_signExtend_of_le h.2]
  · rw [signExtend_eq, signExtend_eq, hu]
  · have hsign : (v &&& ((1#16 <<< k) - 1#16)).getLsbD (k - 1) = v.getLsbD (k - 1) := by
      simp [getLsbD_and_mask v k _ h.2, show k - 1 < k by omega]
    simp only [hsign]
    exact signExtend_eq_mask v k h

/-! ### The laws of R90: a bit set or cleared and a bit read back (1 to 3), a field shifted back (4), a field extended (5) -/

theorem getBit_setBit_self (w : Word) (n : Nat) (h : n ≤ 15) : getBit (setBit w n h) n h = 1#16 := by
  rw [getBit_eq_one_iff, getLsbD_setBit]
  simp

theorem getBit_clearBit_self (w : Word) (n : Nat) (h : n ≤ 15) : getBit (clearBit w n h) n h = 0#16 := by
  rw [getBit_eq_zero_iff, getLsbD_clearBit]
  simp

theorem getBit_setBit_of_ne (w : Word) {n m : Nat} (h : n ≤ 15) (hm : m ≤ 15) (hne : m ≠ n) :
    getBit (setBit w n h) m hm = getBit w m hm := by
  simp only [getBit_eq, getLsbD_setBit, hne, decide_false, Bool.or_false]

theorem getBit_clearBit_of_ne (w : Word) {n m : Nat} (h : n ≤ 15) (hm : m ≤ 15) (hne : m ≠ n) :
    getBit (clearBit w n h) m hm = getBit w m hm := by
  simp only [getBit_eq, getLsbD_clearBit, hne, decide_false, Bool.not_false, Bool.and_true]

/-- A field shifted back is the word under the field's mask (law 4). -/
theorem getBits_shiftLeft (w : Word) (start width : Nat) (h : 1 ≤ width ∧ start + width ≤ 16) :
    getBits w start width h <<< start = w &&& (((1#16 <<< width) - 1#16) <<< start) := by
  apply BitVec.eq_of_getLsbD_eq
  intro i hi
  rw [getBits, BitVec.shiftLeft_and_distrib, BitVec.getLsbD_and, BitVec.getLsbD_and]
  by_cases his : i < start
  · simp [his]
  · simp [his, hi, show start + (i - start) = i by omega]

/-- A field is extended to itself below half its range, and to itself less the range from there on (law 5). -/
theorem signExtend_setWidth {k : Nat} (f : BitVec k) (h : 1 ≤ k ∧ k ≤ 16) :
    signExtend (f.setWidth 16) k h =
      if f.toNat < 2 ^ (k - 1) then BitVec.ofNat 16 f.toNat else BitVec.ofInt 16 (f.toNat - 2 ^ k) := by
  rw [signExtend_eq, BitVec.setWidth_setWidth_of_le _ h.2, BitVec.setWidth_eq, BitVec.signExtend,
    BitVec.toInt_eq_toNat_cond]
  have hpow : 2 ^ k = 2 * 2 ^ (k - 1) := by rw [← pow_succ', Nat.sub_add_cancel h.1]
  by_cases hf : f.toNat < 2 ^ (k - 1)
  · rw [if_pos hf, if_pos (by omega), BitVec.ofInt_natCast]
  · rw [if_neg hf, if_neg (by omega), Nat.cast_pow, Nat.cast_ofNat]

/-- Settles O10: the five laws, the last at the widths of the immediates. -/
theorem primitiveLaws : Obligations.PrimitiveLaws :=
  ⟨fun w n h => ⟨getBit_setBit_self w n h, getBit_clearBit_self w n h,
      fun _ hm hne => ⟨getBit_setBit_of_ne w h hm hne, getBit_clearBit_of_ne w h hm hne⟩⟩,
    getBits_shiftLeft, fun f => signExtend_setWidth f _, fun f => signExtend_setWidth f _,
    fun f => signExtend_setWidth f _, fun f => signExtend_setWidth f _⟩

end Sys2Proof.Bits

/-! PROOFS. The cycle (41_cycle.md): what a step does by the opcode at the PC, the flag policy, and where a run ends. -/

namespace Sys2Proof.Machine

open Bits

/-! ### The flag policy (R106, R107) -/

/-- Settles O20: COND is the flag of the value, by its sign, and every other read is of an untouched field. -/
theorem setccPolicy : Obligations.SetccPolicy :=
  ⟨rfl, rfl, rfl, fun s v => ⟨(flagOf_eq_flagZ_iff v).2, (flagOf_eq_flagN_iff v).2, (flagOf_eq_flagP_iff v).2,
    oneHot_flagOf v, setcc_pc s v, fun r => reg_setcc s r v, fun a => load_setcc s v a⟩⟩

section
variable {i : Instr} {s t : State}

/-- A flag-setting instruction leaves in COND the flag of what its destination reads as. -/
theorem cond_of_setsFlags (hs : i.setsFlags = true) (h : exec i s = .next t) :
    ∃ dr, i.writesReg? = some dr ∧ t.cond = flagOf (t.reg dr) := by
  obtain ⟨dr, r, hw, he⟩ := exec_of_setsFlags i s hs
  cases he.symm.trans h
  exact ⟨dr, hw, by rw [writeResult_cond, reg_writeResult_same]⟩

/-- An instruction that is neither flag-setting nor TRAP leaves COND: it sets the PC, links and sets the PC, or stores. -/
theorem cond_of_not_setsFlags (hs : i.setsFlags = false) (ht : ∀ high4 vec, i ≠ .trap high4 vec)
    (h : exec i s = .next t) : t.cond = s.cond := by
  obtain ⟨dr, r, hflags, -, -, -⟩ | ⟨target, -, -, -, rfl⟩ | ⟨target, -, -, -, rfl⟩ | ⟨a, v, -, -, -, rfl⟩ |
    ⟨high4, vec, writes, hi, -, -⟩ := exec_next i s t h
  · simp [hs] at hflags
  · simp
  · simp
  · simp
  · exact absurd hi (ht high4 vec)

/-- TRAP leaves COND where the reply writes none. -/
theorem cond_of_trap {high4 : BitVec 4} {vec : BitVec 8} {writes : List StoreWrite}
    (hreply : s.advance.nextTrapReply (encode (.trap high4 vec)) = .returns writes .goOn)
    (hw : ∀ f, .cond f ∉ writes) (h : exec (.trap high4 vec) s = .next t) : t.cond = s.cond := by
  obtain ⟨writes', hreply', rfl⟩ := trapDelegate_next _ _ _ h
  cases hreply.symm.trans hreply'
  exact applyWrites_cond _ _ hw

end

/-- Settles O21: one law of COND per kind of instruction, and the reserved rows raise the engine fault where they stand. -/
theorem flagPolicyOfInstructions : Obligations.FlagPolicyOfInstructions := by
  refine ⟨fun i s t h => ⟨fun hs => cond_of_setsFlags hs h, fun hs ht => cond_of_not_setsFlags hs ht h, ?_⟩,
    fun _ s => ⟨⟨_, engineFault_eq _ s⟩, ⟨_, engineFault_eq _ s⟩⟩⟩
  rintro high4 vec rfl writes hreply hw
  exact cond_of_trap hreply hw h

/-! ### The step by the opcode at the PC (R103) -/

/-- Settles O18: the word at the PC is the one fetched. -/
theorem stepRunsDecodedInstruction : Obligations.StepRunsDecodedInstruction := by
  intro s i h
  rw [step, State.fetch, h]

theorem reservedOpcode_iff (op : BitVec 4) : reservedOpcode op = true ↔ op = 0x8#4 ∨ op = 0xD#4 := by
  simp [reservedOpcode]

/-- Settles O24: a word that decodes to TRAP or to a reserved row has its opcode; all others complete. -/
theorem liveWordsContinue : Obligations.LiveWordsContinue := by
  intro s htrap hlive
  obtain ⟨h8, hD⟩ := reservedWordsByOpcode s.fetch
  have hres : ¬ reservedOpcode s.nextOpcode = true := by simp [hlive]
  rw [reservedOpcode_iff, not_or] at hres
  exact exec_completes _ s (fun _ _ hi => htrap (opcode_of_decode_trap hi))
    fun low => ⟨fun hi => hres.1 (h8.1 ⟨low, hi⟩), fun hi => hres.2 (hD.1 ⟨low, hi⟩)⟩

/-- A TRAP step hands the dispatcher the whole word and the state with the advanced PC (R180). -/
theorem step_of_trap {s : State} (h : s.nextOpcode = 0xF#4) : step s = trapDelegate s.fetch s.advance := by
  rw [step, decode_trap _ h]
  exact congrArg (trapDelegate · s.advance) (place_high4Vect8 h)

/-- A reserved word's step is the engine fault with the whole word, on the state before the step (R185, R186). -/
theorem step_of_reserved {s : State} (h : reservedOpcode s.nextOpcode = true) : step s = engineFault s.fetch s := by
  obtain h8 | hD := (reservedOpcode_iff _).1 h
  · rw [step, decode_reserved8 _ h8]
    exact congrArg (engineFault · s) (place_low12 h8)
  · rw [step, decode_reservedD _ hD]
    exact congrArg (engineFault · s) (place_low12 hD)

/-! ### The step as the pseudocode of R109 -/

/-- The pseudocode's register fields are those of the decoder. -/
theorem regBits_eq (w : Word) (start : Nat) (h : 1 ≤ 3 ∧ start + 3 ≤ 16) : regBits w start h = w.extractLsb' start 3 :=
  setWidth_getBits w start 3 h

/-- The pseudocode's immediates are those of the decoded fields. -/
theorem signExtend_getBits (w : Word) (k : Nat) (h : 1 ≤ k ∧ 0 + k ≤ 16) (h' : 1 ≤ k ∧ k ≤ 16) :
    signExtend (getBits w 0 k h) k h' = signExtend ((w.extractLsb' 0 k).setWidth 16) k h' := by
  rw [getBits_eq_extract]

/-- The pseudocode's one-bit fields are the bits the decoder tests. -/
theorem getBits_one (w : Word) (k : Nat) (h : 1 ≤ 1 ∧ k + 1 ≤ 16) : getBits w k 1 h = getBit w k (by omega) := rfl

/-- Settles O19: the opcode picks the same row on both sides, IR[5] or IR[11] the form where the row has two, and the
handlers read the fields that are decoded. -/
theorem stepIsExecuteInstruction : Obligations.StepIsExecuteInstruction := by
  intro s
  have hfetch : s.load s.pc = s.fetch := rfl
  have hadvance : s.setPc (s.pc + 1#16) = s.advance := rfl
  obtain ⟨o, ho⟩ := opcode_cases s.fetch
  have hop : (getBits s.fetch 12 4).toNat = o.code.toNat := by
    rw [getBits_eq_extract, ho, BitVec.toNat_setWidth_of_le (by decide)]
  simp only [executeInstruction, hfetch, hadvance, hop, regBits_eq, signExtend_getBits, getBits_one,
    getBit_eq_zero_iff, getBit_eq_one_iff]
  cases o
  case br => rw [step, decode_br _ ho]; rfl
  case add =>
    cases h5 : s.fetch.getLsbD 5
    · rw [step, decode_add_reg _ ho h5]; rfl
    · rw [step, decode_add_imm _ ho h5]; rfl
  case ld => rw [step, decode_ld _ ho]; rfl
  case st => rw [step, decode_st _ ho]; rfl
  case jsr =>
    cases h11 : s.fetch.getLsbD 11
    · rw [step, decode_jsrr _ ho h11]; rfl
    · rw [step, decode_jsr _ ho h11]; rfl
  case and =>
    cases h5 : s.fetch.getLsbD 5
    · rw [step, decode_and_reg _ ho h5]; rfl
    · rw [step, decode_and_imm _ ho h5]; rfl
  case ldr => rw [step, decode_ldr _ ho]; rfl
  case str => rw [step, decode_str _ ho]; rfl
  case reserved8 => exact step_of_reserved ((reservedOpcode_iff _).2 (.inl ho))
  case not => rw [step, decode_not _ ho]; rfl
  case ldi => rw [step, decode_ldi _ ho]; rfl
  case sti => rw [step, decode_sti _ ho]; rfl
  case jmp => rw [step, decode_jmp _ ho]; rfl
  case reservedD => exact step_of_reserved ((reservedOpcode_iff _).2 (.inr ho))
  case lea => rw [step, decode_lea _ ho]; rfl
  case trap => exact step_of_trap ho

/-! ### The end of a run (R110, R213) -/

/-- The delegation halts exactly on a Halt reply, with the state the service left. -/
theorem trapDelegate_halt_iff (ir : Word) (s f : State) : trapDelegate ir s = .fault (.halt f) ↔
    ∃ writes, s.nextTrapReply ir = .returns writes .halt ∧ f = s.countTrap.applyWrites writes := by
  constructor
  · intro h
    obtain ⟨writes, hreply, hf⟩ | ⟨-, hstuck⟩ := trapDelegate_fault ir s _ h
    · exact ⟨writes, hreply, Fault.halt.inj hf⟩
    · cases hstuck
  · rintro ⟨writes, hreply, rfl⟩
    rw [trapDelegate, hreply]
    rfl

/-- A step halts exactly at a TRAP whose reply is Halt, with the state the service left (R183). -/
theorem step_halt_iff (s f : State) : step s = .fault (.halt f) ↔ s.nextOpcode = 0xF#4 ∧
    ∃ writes, s.advance.nextTrapReply s.fetch = .returns writes .halt ∧ f = s.advance.countTrap.applyWrites writes := by
  rw [← trapDelegate_halt_iff]
  constructor
  · intro h
    obtain ⟨high4, vec, hi, -⟩ | ⟨-, hengine⟩ := exec_fault _ s _ h
    · have hop : s.nextOpcode = 0xF#4 := opcode_of_decode_trap hi
      exact ⟨hop, step_of_trap hop ▸ h⟩
    · cases hengine
  · rintro ⟨hop, h⟩
    exact (step_of_trap hop).trans h

/-- Settles O57: a run ends with a fault exactly where completed steps lead to a step that is the fault, and a step halts
exactly at a TRAP whose reply is Halt, and is the engine fault at a reserved word. -/
theorem runEndsAtHaltReplyOrReservedWord : Obligations.RunEndsAtHaltReplyOrReservedWord := by
  refine fun n s final => ⟨(run_fault_iff n s (.halt final)).trans ⟨?_, ?_⟩, fun k hk hrun hres => ?_⟩
  · rintro ⟨k, last, hk, hrun, hstep⟩
    obtain ⟨hop, writes, hreply, hfinal⟩ := (step_halt_iff last final).1 hstep
    exact ⟨k, last, writes, hk, hrun, hop, hreply, hfinal⟩
  · rintro ⟨k, last, writes, hk, hrun, hop, hreply, hfinal⟩
    exact ⟨k, last, hk, hrun, (step_halt_iff last final).2 ⟨hop, writes, hreply, hfinal⟩⟩
  · exact (run_fault_iff n s _).2 ⟨k, final, hk, hrun, (step_of_reserved hres).trans (engineFault_eq _ final)⟩

end Sys2Proof.Machine

/-! PROOFS. The operate instructions ADD, AND and NOT (42_operate.md): which words they are, and what each writes. -/

namespace Sys2Proof.Machine

/-! ### The effect they share -/

/-- Advancing the PC and writing a result is the effect `WroteResult` names: its register, its flag, its frame. -/
theorem wroteResult_advance_writeResult (s : State) (dr : RegId) (r : Word) :
    WroteResult dr r s (s.advance.writeResult dr r) :=
  ⟨reg_writeResult_same _ _ _, flagOf_eq r, rfl, fun _ hj => reg_writeResult_other _ _ _ _ (by simpa using hj),
    fun _ _ => rfl, rfl, rfl⟩

/-- An instruction that ends by writing a result completes with that effect (R107). -/
theorem wroteResult_of_exec {i : Instr} {s : State} {dr : RegId} {r : Word}
    (h : exec i s = .next (s.advance.writeResult dr r)) : ∃ t, exec i s = .next t ∧ WroteResult dr r s t :=
  ⟨_, h, wroteResult_advance_writeResult s dr r⟩

/-! ### The five results, read in the state before the step (R225) -/

section
variable (dr sr1 sr2 : RegId) (imm5 : BitVec 5) (s : State)

theorem exec_addReg : exec (.addReg dr sr1 sr2) s =
    .next (s.advance.writeResult dr (BitVec.ofNat 16 ((s.reg sr1).toNat + (s.reg sr2).toNat))) := by
  rw [← BitVec.add_def]; rfl

theorem exec_addImm : exec (.addImm dr sr1 imm5) s =
    .next (s.advance.writeResult dr (s.reg sr1 + imm5.signExtend 16)) := by
  rw [← immWord_eq]; rfl

theorem exec_andReg : exec (.andReg dr sr1 sr2) s = .next (s.advance.writeResult dr (s.reg sr1 &&& s.reg sr2)) := rfl

theorem exec_andImm : exec (.andImm dr sr1 imm5) s =
    .next (s.advance.writeResult dr (s.reg sr1 &&& imm5.signExtend 16)) := by
  rw [← immWord_eq]; rfl

theorem exec_not : exec (.not dr sr1) s = .next (s.advance.writeResult dr (~~~(s.reg sr1))) := rfl

end

/-! ### The obligations: the mask tests the opcode and the form bit, and exec writes the result -/

/-- Settles O29: opcode 0x1 with IR[5] clear, and the sum of the two sources. -/
theorem addRegisterForm : Obligations.AddRegisterForm := by
  refine ⟨fun w h => ?_, fun dr sr1 sr2 s => wroteResult_of_exec (exec_addReg dr sr1 sr2 s)⟩
  obtain ⟨ho, h5⟩ := (and_F020_eq_iff (by decide)).1 h
  exact decode_add_reg w ho h5

/-- Settles O30: opcode 0x1 with IR[5] set, and the sum of the source and the sign-extended immediate. -/
theorem addImmediateForm : Obligations.AddImmediateForm := by
  refine ⟨fun w h => ?_, fun dr sr1 imm5 s => wroteResult_of_exec (exec_addImm dr sr1 imm5 s)⟩
  obtain ⟨ho, h5⟩ := (and_F020_eq_iff (by decide)).1 h
  exact decode_add_imm w ho h5

/-- Settles O31: opcode 0x5 with IR[5] clear, and the AND of the two sources. -/
theorem andRegisterForm : Obligations.AndRegisterForm := by
  refine ⟨fun w h => ?_, fun dr sr1 sr2 s => wroteResult_of_exec (exec_andReg dr sr1 sr2 s)⟩
  obtain ⟨ho, h5⟩ := (and_F020_eq_iff (by decide)).1 h
  exact decode_and_reg w ho h5

/-- Settles O32: opcode 0x5 with IR[5] set, and the AND of the source and the sign-extended immediate. -/
theorem andImmediateForm : Obligations.AndImmediateForm := by
  refine ⟨fun w h => ?_, fun dr sr1 imm5 s => wroteResult_of_exec (exec_andImm dr sr1 imm5 s)⟩
  obtain ⟨ho, h5⟩ := (and_F020_eq_iff (by decide)).1 h
  exact decode_and_imm w ho h5

/-- Settles O33: opcode 0x9 whatever IR[5:0] holds, and the complement of the source. -/
theorem notInstruction : Obligations.NotInstruction :=
  ⟨fun w h => decode_not w ((and_F000_eq_iff (by decide)).1 h),
    fun dr sr1 s => wroteResult_of_exec (exec_not dr sr1 s)⟩

end Sys2Proof.Machine

/-! PROOFS. Control transfer: BR, JMP, JSR and JSRR (43_control.md): which words they are, where each goes on, and the
link. -/

namespace Sys2Proof.Machine

/-! ### The two effects -/

/-- Setting the PC is the effect `Jumped` names: its target, its frame, nothing else. -/
theorem jumped_setPc (s : State) (target : Word) : Jumped target s (s.setPc target) :=
  ⟨rfl, rfl, fun _ _ => rfl, fun _ _ => rfl, rfl, rfl⟩

/-- Writing the advanced PC to R7 and setting the PC is the effect `Called` names. -/
theorem called_setReg_setPc (s : State) (target : Word) :
    Called target s ((s.setReg 7#3 (s.pc + 1#16)).setPc target) :=
  ⟨reg_setReg_same _ _ _, rfl, rfl, fun _ hj => reg_setReg_other _ _ _ _ (by simpa using hj), fun _ _ => rfl, rfl, rfl⟩

/-! ### The branch test (R140) -/

theorem branchTaken_zero (c : Cond) : branchTaken 0#3 c = true := (branchTaken_iff _ _).2 (.inl rfl)

/-- Mask 111 meets COND in whatever flag is set, so it misses COND 000 alone. -/
theorem branchTaken_seven_iff (c : Cond) : branchTaken 7#3 c = true ↔ c ≠ 0#3 := by
  have hand : 7#3 &&& c = c := BitVec.allOnes_and
  rw [branchTaken_iff, hand]
  simp

/-! ### The next states -/

section
variable {nzp : Cond} (off : BitVec 9) {s : State}

theorem exec_br_of_taken (h : branchTaken nzp s.cond = true) :
    exec (.br nzp off) s = .next (s.setPc (s.pc + 1#16 + off.signExtend 16)) := by
  rw [← offset9Word_eq]
  exact congrArg _ (if_pos h)

theorem exec_br_of_not_taken (h : ¬ branchTaken nzp s.cond = true) :
    exec (.br nzp off) s = .next (s.setPc (s.pc + 1#16)) :=
  congrArg _ (if_neg h)

end

theorem exec_jmp (baseR : RegId) (s : State) : exec (.jmp baseR) s = .next (s.setPc (s.reg baseR)) := rfl

/-- JSR reads its target relative to R7 as the link write leaves it (R145, R146). -/
theorem exec_jsr (off : BitVec 11) (s : State) : exec (.jsr off) s =
    .next ((s.setReg 7#3 (s.pc + 1#16)).setPc ((s.setReg 7#3 (s.pc + 1#16)).reg 7#3 + off.signExtend 16)) := by
  rw [reg_setReg_same, ← offset11Word_eq]
  rfl

/-- JSRR reads its target from the registers as the link write leaves them (R146, R147). -/
theorem exec_jsrr (baseR : RegId) (s : State) : exec (.jsrr baseR) s =
    .next ((s.setReg 7#3 (s.pc + 1#16)).setPc ((s.setReg 7#3 (s.pc + 1#16)).reg baseR)) := rfl

/-! ### The obligations -/

/-- Settles O34: opcode 0x0, and a jump to the target or to the next word as the branch test decides. -/
theorem branchInstruction : Obligations.BranchInstruction := by
  refine ⟨fun w h => decode_br w ((and_F000_eq_iff (by decide)).1 h), fun nzp off s => ?_⟩
  simp only [← branchTaken_iff]
  split
  · next h => exact ⟨_, exec_br_of_taken off h, jumped_setPc _ _⟩
  · next h => exact ⟨_, exec_br_of_not_taken off h, jumped_setPc _ _⟩

/-- Settles O36: mask 000 is always taken, mask 111 exactly when COND is not 000. -/
theorem branchMasksZeroAndSeven : Obligations.BranchMasksZeroAndSeven := by
  intro off s
  have hzero := exec_br_of_taken off (branchTaken_zero s.cond)
  refine ⟨fun hc => ?_, fun hc => ⟨?_, hzero⟩⟩
  · exact (exec_br_of_taken off ((branchTaken_seven_iff _).2 hc)).trans hzero.symm
  · exact exec_br_of_not_taken off fun h => (branchTaken_seven_iff _).1 h hc

/-- Settles O37: opcode 0xC whatever IR[11:9] and IR[5:0] hold, and a jump to the base register. -/
theorem jumpInstruction : Obligations.JumpInstruction :=
  ⟨fun w h => decode_jmp w ((and_F000_eq_iff (by decide)).1 h), decode_jmp 0xC1C0#16 (by decide),
    fun baseR s => ⟨_, exec_jmp baseR s, jumped_setPc _ _⟩⟩

/-- Settles O38: opcode 0x4 with IR[11] set, and a call to the target relative to R7, which holds the advanced PC. -/
theorem callRelative : Obligations.CallRelative := by
  refine ⟨fun w h => ?_, fun off s => ⟨_, exec_jsr off s, ?_, rfl⟩⟩
  · obtain ⟨ho, h11⟩ := (and_F800_eq_iff (by decide)).1 h
    exact decode_jsr w ho h11
  · rw [reg_setReg_same]
    exact called_setReg_setPc s _

/-- Settles O39: opcode 0x4 with IR[11] clear, and a call to the base register, which for R7 is the link just written. -/
theorem callRegister : Obligations.CallRegister := by
  refine ⟨fun w h => ?_, fun baseR s => ⟨_, exec_jsrr baseR s, ?_⟩⟩
  · obtain ⟨ho, h11⟩ := (and_F800_eq_iff (by decide)).1 h
    exact decode_jsrr w ho h11
  · rw [reg_setReg]
    exact called_setReg_setPc s _

/-- Settles O40: the next states of JSR and JSRR are given by the registers after the write of R7. -/
theorem linkWrittenBeforeTargetRead : Obligations.LinkWrittenBeforeTargetRead := fun s =>
  ⟨fun off => ⟨_, exec_jsr off s, reg_setReg_same _ _ _, rfl⟩,
    fun baseR => ⟨_, exec_jsrr baseR s, reg_setReg_same _ _ _, rfl⟩⟩

end Sys2Proof.Machine

/-! PROOFS. Loads, LEA and stores (44_loadstore.md): the three address modes, which words they are, and what each does to
the registers, memory and COND. -/

namespace Sys2Proof.Machine

/-! ### The address modes, in the state before the step (R167) -/

theorem pcRelative_advance (s : State) (off : BitVec 9) :
    s.advance.pcRelative off = s.pc + 1#16 + off.signExtend 16 := by
  rw [State.pcRelative, advance_pc, offset9Word_eq]

theorem indirect_advance (s : State) (off : BitVec 9) :
    s.advance.indirect off = s.load (s.pc + 1#16 + off.signExtend 16) := by
  rw [State.indirect, pcRelative_advance, load_advance]

theorem baseOffset_advance (s : State) (baseR : RegId) (off : BitVec 6) :
    s.advance.baseOffset baseR off = s.reg baseR + off.signExtend 16 := by
  rw [State.baseOffset, reg_advance, offset6Word_eq]

/-! ### The next states -/

section
variable (dr sr baseR : RegId) (off : BitVec 9) (off6 : BitVec 6) (s : State)

theorem exec_ld : exec (.ld dr off) s =
    .next (s.advance.writeResult dr (s.load (s.pc + 1#16 + off.signExtend 16))) := by
  rw [← pcRelative_advance]; rfl

theorem exec_ldi : exec (.ldi dr off) s =
    .next (s.advance.writeResult dr (s.load (s.load (s.pc + 1#16 + off.signExtend 16)))) := by
  rw [← indirect_advance]; rfl

/-- LDR reads its base in the state before the step, so also where it is the destination (R162). -/
theorem exec_ldr : exec (.ldr dr baseR off6) s =
    .next (s.advance.writeResult dr (s.load (s.reg baseR + off6.signExtend 16))) := by
  rw [← baseOffset_advance]; rfl

/-- LEA writes the address, and what memory holds there has no part in it (R163). -/
theorem exec_lea : exec (.lea dr off) s = .next (s.advance.writeResult dr (s.pc + 1#16 + off.signExtend 16)) := by
  rw [← pcRelative_advance]; rfl

theorem exec_st : exec (.st sr off) s = .next (s.advance.store (s.advance.pcRelative off) (s.reg sr)) := rfl

theorem exec_sti : exec (.sti sr off) s = .next (s.advance.store (s.advance.indirect off) (s.reg sr)) := rfl

theorem exec_str : exec (.str sr baseR off6) s =
    .next (s.advance.store (s.advance.baseOffset baseR off6) (s.reg sr)) := rfl

end

/-! ### What the two kinds of next state say of COND and the PC (R168) -/

section
variable {i : Instr} {s : State}

/-- An instruction that ends by writing a result leaves COND the flag of its destination and the PC advanced. -/
theorem cond_pc_of_exec_writeResult {dr : RegId} {r : Word} (h : exec i s = .next (s.advance.writeResult dr r)) :
    ∃ t, exec i s = .next t ∧ t.cond = flagOf (t.reg dr) ∧ t.pc = s.advance.pc :=
  ⟨_, h, by rw [writeResult_cond, reg_writeResult_same], writeResult_pc _ _ _⟩

/-- An instruction that ends by storing a word leaves COND alone and the PC advanced. -/
theorem cond_pc_of_exec_store {a v : Word} (h : exec i s = .next (s.advance.store a v)) :
    ∃ t, exec i s = .next t ∧ t.cond = s.cond ∧ t.pc = s.advance.pc :=
  ⟨_, h, by rw [store_cond, advance_cond], store_pc _ _ _⟩

end

/-! ### The obligations: the mask tests the opcode, and exec writes the result or stores the register -/

/-- Settles O41: opcode 0x2, and the word at the PC-relative address. -/
theorem loadInstruction : Obligations.LoadInstruction :=
  ⟨fun w h => decode_ld w ((and_F000_eq_iff (by decide)).1 h),
    fun dr off s => wroteResult_of_exec (exec_ld dr off s)⟩

/-- Settles O42: opcode 0xA, and the word at the pointer. -/
theorem loadIndirect : Obligations.LoadIndirect :=
  ⟨fun w h => decode_ldi w ((and_F000_eq_iff (by decide)).1 h),
    fun dr off s => wroteResult_of_exec (exec_ldi dr off s)⟩

/-- Settles O43: opcode 0x6, and the word at base + offset. -/
theorem loadBaseOffset : Obligations.LoadBaseOffset :=
  ⟨fun w h => decode_ldr w ((and_F000_eq_iff (by decide)).1 h),
    fun dr baseR off s => wroteResult_of_exec (exec_ldr dr baseR off s)⟩

/-- Settles O44: opcode 0xE, and the PC-relative address itself. -/
theorem loadEffectiveAddress : Obligations.LoadEffectiveAddress :=
  ⟨fun w h => decode_lea w ((and_F000_eq_iff (by decide)).1 h),
    fun dr off s => wroteResult_of_exec (exec_lea dr off s)⟩

/-- Settles O45: opcode 0x3, and a store at the PC-relative address. -/
theorem storeInstruction : Obligations.StoreInstruction :=
  ⟨fun w h => decode_st w ((and_F000_eq_iff (by decide)).1 h),
    fun sr off s => ⟨pcRelative_advance s off, _, exec_st sr off s, stored_advance_store s _ _⟩⟩

/-- Settles O46: opcode 0xB, and a store at the pointer. -/
theorem storeIndirect : Obligations.StoreIndirect :=
  ⟨fun w h => decode_sti w ((and_F000_eq_iff (by decide)).1 h),
    fun sr off s => ⟨indirect_advance s off, _, exec_sti sr off s, stored_advance_store s _ _⟩⟩

/-- Settles O47: opcode 0x7, and a store at base + offset. -/
theorem storeBaseOffset : Obligations.StoreBaseOffset :=
  ⟨fun w h => decode_str w ((and_F000_eq_iff (by decide)).1 h),
    fun sr baseR off s => ⟨baseOffset_advance s baseR off, _, exec_str sr baseR off s, stored_advance_store s _ _⟩⟩

/-- Settles O48: the loads and LEA end by writing a result, the stores by storing a word. -/
theorem loadStoreFamilyFlags : Obligations.LoadStoreFamilyFlags := by
  refine fun s => ⟨fun i dr hform => ?_, fun i sr hform => ?_⟩
  · obtain ⟨off, rfl⟩ | ⟨off, rfl⟩ | ⟨baseR, off, rfl⟩ | ⟨off, rfl⟩ := hform
    · exact cond_pc_of_exec_writeResult (exec_ld dr off s)
    · exact cond_pc_of_exec_writeResult (exec_ldi dr off s)
    · exact cond_pc_of_exec_writeResult (exec_ldr dr baseR off s)
    · exact cond_pc_of_exec_writeResult (exec_lea dr off s)
  · obtain ⟨off, rfl⟩ | ⟨off, rfl⟩ | ⟨baseR, off, rfl⟩ := hform
    · exact cond_pc_of_exec_store (exec_st sr off s)
    · exact cond_pc_of_exec_store (exec_sti sr off s)
    · exact cond_pc_of_exec_store (exec_str sr baseR off s)

end Sys2Proof.Machine

/-! PROOFS. TRAP and the reserved opcodes (45_trap_reserved.md): what TRAP does with each reply, which states a reply
leads to, what a reserved word raises, and how a step can stop without TRAP. -/

namespace Sys2Proof.Machine

/-! ### TRAP and the reply it gets (R180 to R183) -/

/-- A reply that stands in the state is the next one, and the PC's advance leaves it there (R181). -/
theorem nextTrapReply_advance {s : State} {reply : TrapReply} {rest : List TrapReply}
    (h : s.trapReplies = reply :: rest) (ir : Word) : s.advance.nextTrapReply ir = reply := by
  rw [State.nextTrapReply, advance_trapReplies, h]

/-- With a reply in the state, TRAP is the return from the dispatcher with it. -/
theorem exec_trap_of_trapReplies {s : State} {reply : TrapReply} {rest : List TrapReply}
    (h : s.trapReplies = reply :: rest) (high4 : BitVec 4) (vec : BitVec 8) :
    exec (.trap high4 vec) s = trapReturn (encode (.trap high4 vec)) s.advance reply :=
  congrArg (trapReturn _ s.advance) (nextTrapReply_advance h _)

/-- On a Continue reply in the state, TRAP goes on with the state the service left (R182, R206). -/
theorem exec_trap_goOn {s : State} {writes : List StoreWrite} {rest : List TrapReply}
    (h : s.trapReplies = .returns writes .goOn :: rest) (high4 : BitVec 4) (vec : BitVec 8) :
    exec (.trap high4 vec) s = .next (s.advance.countTrap.applyWrites writes) :=
  exec_trap_of_trapReplies h high4 vec

/-- The word the dispatcher gets: the opcode and all 12 bits below it (R180). -/
theorem encode_trap (high4 : BitVec 4) (vec : BitVec 8) :
    encode (.trap high4 vec) = 0xF000#16 ||| high4.setWidth 16 <<< 8 ||| vec.setWidth 16 := by
  have hop : place Opcode.trap.code 12 = 0xF000#16 := rfl
  rw [encode, hop, place, place, BitVec.shiftLeft_zero]

/-- Settles O49: the step delegates the fetched word, and the return is split by the reply and its status. -/
theorem trapStepIsTheReply : Obligations.TrapStepIsTheReply := by
  intro s h
  rw [step_of_trap h, trapDelegate]
  cases s.advance.nextTrapReply s.fetch with
  | noResult => rfl
  | returns writes status =>
    cases status with
    | goOn => rfl
    | halt => rfl

/-- Settles O50: the next state is the service's, and each frame is that of its writes. -/
theorem trapContinues : Obligations.TrapContinues := by
  intro high4 vec s writes rest h
  refine ⟨_, exec_trap_goOn h high4 vec, rfl, fun r hr => applyWrites_reg_other _ _ r hr,
    fun hp => applyWrites_pc _ _ hp, fun hc => applyWrites_cond _ _ hc,
    fun a ha => applyWrites_load_other _ _ a ha, ?_, ?_⟩
  · rw [applyWrites_trapReplies, countTrap_trapReplies, advance_trapReplies, h, List.tail_cons]
  · rw [applyWrites_trapDraws, countTrap_trapDraws, advance_trapDraws]

/-- Settles O51: the return with a Halt reply. -/
theorem trapHalts : Obligations.TrapHalts := fun high4 vec _ _ _ h => exec_trap_of_trapReplies h high4 vec

/-- Settles O52: the return with no result, and the word it hands over written out. -/
theorem trapWithoutResultIsStuck : Obligations.TrapWithoutResultIsStuck := by
  intro high4 vec s rest h
  rw [exec_trap_of_trapReplies h, encode_trap]
  rfl

/-! ### A reply that leads to a given state (R181) -/

/-- The write puts the target's own value in its place. -/
def StoreWrite.CopiesFrom (target : State) : StoreWrite → Prop
  | .reg i v => v = target.reg i
  | .pc p => p = target.pc
  | .cond f => f = target.cond
  | .mem a v => v = target.load a

/-- Every value of a field of `n` bits: the register identifiers and the addresses. -/
def allValues (n : Nat) : List (BitVec n) := List.ofFn BitVec.ofFin

theorem mem_allValues {n : Nat} (x : BitVec n) : x ∈ allValues n := List.mem_ofFn.2 ⟨x.toFin, rfl⟩

/-- The writes of every register, every word of memory, the PC and COND with the target's values. -/
def copyWrites (target : State) : List StoreWrite :=
  (allValues 3).map (fun i => .reg i (target.reg i)) ++ (allValues 16).map (fun a => .mem a (target.load a)) ++
    [.pc target.pc, .cond target.cond]

/-- These are all the writes that copy from the target and no others. -/
theorem mem_copyWrites_iff (target : State) (w : StoreWrite) : w ∈ copyWrites target ↔ w.CopiesFrom target := by
  cases w with
  | reg i v => simp [copyWrites, StoreWrite.CopiesFrom, mem_allValues, eq_comm]
  | pc p => simp [copyWrites, StoreWrite.CopiesFrom]
  | cond f => simp [copyWrites, StoreWrite.CopiesFrom]
  | mem a v => simp [copyWrites, StoreWrite.CopiesFrom, mem_allValues, eq_comm]

/-- What one of the writes sets and all of them keep is so after them, from any state. -/
theorem applyWrites_of_mem {p : State → Prop} {ws : List StoreWrite} {w : StoreWrite} (hw : w ∈ ws)
    (hset : ∀ s : State, p (s.applyWrite w)) (hkeep : ∀ v ∈ ws, ∀ s : State, p s → p (s.applyWrite v)) (s : State) :
    p (s.applyWrites ws) := by
  obtain ⟨before, after, rfl⟩ := List.append_of_mem hw
  rw [applyWrites_append, applyWrites_cons]
  exact List.foldlRecOn after State.applyWrite (hset _)
    fun t ht v hv => hkeep v (by simp [hv]) t ht

section
variable {target : State} {w : StoreWrite} (hw : w.CopiesFrom target) (s : State)
include hw

theorem reg_applyWrite_of_copies (r : RegId) (h : s.reg r = target.reg r) :
    (s.applyWrite w).reg r = target.reg r := by
  cases w with
  | reg i v =>
    cases hw
    rw [State.applyWrite, reg_setReg, h]
    exact ite_eq_right_iff.2 fun e => by rw [e]
  | pc p => exact h
  | cond f => exact h
  | mem a v => exact h

theorem pc_applyWrite_of_copies (h : s.pc = target.pc) : (s.applyWrite w).pc = target.pc := by
  cases w with
  | pc p => exact hw
  | reg i v => exact h
  | cond f => exact h
  | mem a v => exact h

theorem cond_applyWrite_of_copies (h : s.cond = target.cond) : (s.applyWrite w).cond = target.cond := by
  cases w with
  | cond f => exact hw
  | reg i v => exact h
  | pc p => exact h
  | mem a v => exact h

theorem load_applyWrite_of_copies (b : Word) (h : s.load b = target.load b) :
    (s.applyWrite w).load b = target.load b := by
  cases w with
  | mem a v =>
    cases hw
    rw [State.applyWrite, load_store, h]
    exact ite_eq_right_iff.2 fun e => by rw [e]
  | reg i v => exact h
  | pc p => exact h
  | cond f => exact h

end

/-- From any state the copying writes lead to the target's registers, PC, COND and memory words. -/
theorem sameArch_applyWrites_copyWrites (target s : State) : SameArch target (s.applyWrites (copyWrites target)) := by
  have hcopy : ∀ w, w ∈ copyWrites target → w.CopiesFrom target := fun w => (mem_copyWrites_iff target w).1
  have hmem : ∀ w, w.CopiesFrom target → w ∈ copyWrites target := fun w => (mem_copyWrites_iff target w).2
  refine ⟨fun r => ?_, ?_, ?_, fun a => ?_⟩
  · exact applyWrites_of_mem (p := fun t => t.reg r = target.reg r) (hmem (.reg r (target.reg r)) rfl)
      (fun t => reg_setReg_same t r _) (fun w hw t => reg_applyWrite_of_copies (hcopy w hw) t r) s
  · exact applyWrites_of_mem (p := fun t => t.pc = target.pc) (hmem (.pc target.pc) rfl)
      (fun t => setPc_pc t _) (fun w hw t => pc_applyWrite_of_copies (hcopy w hw) t) s
  · exact applyWrites_of_mem (p := fun t => t.cond = target.cond) (hmem (.cond target.cond) rfl)
      (fun t => setCond_cond t _) (fun w hw t => cond_applyWrite_of_copies (hcopy w hw) t) s
  · exact applyWrites_of_mem (p := fun t => t.load a = target.load a) (hmem (.mem a (target.load a)) rfl)
      (fun t => load_store_same t a _) (fun w hw t => load_applyWrite_of_copies (hcopy w hw) t a) s

/-- Settles O53: the reply whose writes copy the target. -/
theorem trapServiceReachesEveryState : Obligations.TrapServiceReachesEveryState := fun _ target =>
  ⟨copyWrites target, fun high4 vec _ =>
    ⟨_, exec_trap_goOn rfl high4 vec, sameArch_applyWrites_copyWrites target _⟩⟩

/-! ### The reserved opcodes, and the stops without TRAP (R185, R186, R212) -/

/-- The engine fault of a word made of an opcode and 12 bits below it: the record has the word as their sum. -/
theorem engineFault_place (op : BitVec 4) (low12 : BitVec 12) (s : State) :
    engineFault (place op 12 ||| place low12 0) s =
      .fault (.engineFault { pc := s.pc, word := place op 12 + low12.setWidth 16, opcode := op } s) := by
  have hlow : place low12 0 = low12.setWidth 16 := BitVec.shiftLeft_zero _
  have hdisjoint : place op 12 &&& place low12 0 = 0#16 := by
    ext i hi
    by_cases h : i < 12
    · have habove : (place op 12)[i] = false := by simp [h]
      simp [habove]
    · have hbelow : (place low12 0)[i] = false := by simp [BitVec.getLsbD_of_ge low12 i (not_lt.1 h)]
      simp [hbelow]
  have hopcode : (place op 12 ||| place low12 0).extractLsb' 12 4 = op := by
    simp [BitVec.extractLsb'_or]
  rw [engineFault_eq, hopcode, ← BitVec.add_eq_or_of_and_eq_zero _ _ hdisjoint, hlow]

/-- Settles O54: both rows raise the engine fault of their word. -/
theorem reservedOpcodesFault : Obligations.ReservedOpcodesFault := fun low12 s =>
  ⟨engineFault_place 0x8#4 low12 s, engineFault_place 0xD#4 low12 s⟩

/-- A step that stops without TRAP stops with the engine fault, in the state before it. -/
theorem fault_of_step_of_not_trap {s : State} {f : Fault} (hop : s.nextOpcode ≠ 0xF#4) (h : step s = .fault f) :
    ∃ info, f = .engineFault info s := by
  obtain ⟨high4, vec, hi, -⟩ | ⟨-, hengine⟩ := exec_fault _ s f h
  · exact absurd (opcode_of_decode_trap hi) hop
  · cases hengine
    exact ⟨_, rfl⟩

/-- Settles O56: the engine fault is neither halt nor trapStuck. -/
theorem onlyTrapHaltsOrSticks : Obligations.OnlyTrapHaltsOrSticks := by
  refine fun s hop => ⟨fun f h => ?_, fun w f h => ?_⟩
  · obtain ⟨info, hf⟩ := fault_of_step_of_not_trap hop h
    cases hf
  · obtain ⟨info, hf⟩ := fault_of_step_of_not_trap hop h
    cases hf

end Sys2Proof.Machine

/-! PROOFS. The engine fault: the step that raises it and the run that ends with it (60_exceptions.md R200, R205, R213). -/

namespace Sys2Proof.Machine

/-- The delegation never raises the engine fault: without a result it is stuck, on Halt it halts. -/
theorem trapDelegate_ne_engineFault (ir : Word) (s final : State) (info : FaultInfo) :
    trapDelegate ir s ≠ .fault (.engineFault info final) := by
  intro h
  obtain ⟨_, -, hhalt⟩ | ⟨-, hstuck⟩ := trapDelegate_fault ir s _ h
  · cases hhalt
  · cases hstuck

/-- A word that decodes to a reserved row has a reserved opcode (R67). -/
theorem reservedOpcode_of_decode {s : State} {low : BitVec 12}
    (h : decode s.fetch = .reserved8 low ∨ decode s.fetch = .reservedD low) : reservedOpcode s.nextOpcode = true := by
  obtain ⟨h8, hD⟩ := reservedWordsByOpcode s.fetch
  exact (reservedOpcode_iff _).2 (h.imp (fun hi => h8.1 ⟨low, hi⟩) fun hi => hD.1 ⟨low, hi⟩)

/-- Only a reserved opcode raises the engine fault (R200): of the instructions that stop, TRAP never does. -/
theorem reservedOpcode_of_step_engineFault {s final : State} {info : FaultInfo}
    (h : step s = .fault (.engineFault info final)) : reservedOpcode s.nextOpcode = true := by
  obtain ⟨_, _, -, htrap⟩ | ⟨⟨_, hi⟩, -⟩ := exec_fault _ s _ h
  · exact absurd htrap (trapDelegate_ne_engineFault _ _ _ _)
  · exact reservedOpcode_of_decode hi

/-- A reserved opcode's step is the engine fault whose record names the PC, the word and the opcode (R185, D9). -/
theorem step_engineFault_of_reserved {s : State} (h : reservedOpcode s.nextOpcode = true) :
    step s = .fault (.engineFault { pc := s.pc, word := s.fetch, opcode := s.nextOpcode } s) :=
  (step_of_reserved h).trans (engineFault_eq _ s)

/-- Settles O55: a step that raises the engine fault stands at a reserved opcode, whose step is one known fault. -/
theorem engineFaultExactlyOnReserved : Obligations.EngineFaultExactlyOnReserved := by
  intro s final info
  constructor
  · intro h
    have hres : reservedOpcode s.nextOpcode = true := reservedOpcode_of_step_engineFault h
    cases h.symm.trans (step_engineFault_of_reserved hres)
    exact ⟨hres, rfl, rfl⟩
  · rintro ⟨hres, rfl, rfl⟩
    exact step_engineFault_of_reserved hres

/-- Settles O58: completed steps lead to the step that faults, and that step leaves the state it was taken in. -/
theorem faultedRunStandsAtReservedWord : Obligations.FaultedRunStandsAtReservedWord := by
  intro n s final info h
  obtain ⟨k, last, hk, hrun, hstep⟩ := (run_fault_iff n s _).1 h
  obtain ⟨hres, rfl, hinfo⟩ := (engineFaultExactlyOnReserved last final info).1 hstep
  exact ⟨⟨k, hk, hrun⟩, hres, hinfo⟩

end Sys2Proof.Machine

/-! PROOFS. What the state at reset reads as (10_state.md section 8, log entries 2 to 5). -/

namespace Sys2Proof.Machine

@[simp] theorem reg_reset (r : RegId) : State.reset.reg r = 0#16 := by
  simp [State.reg, State.reset]

/-- Memory at reset lists no cell, so every word is the one an unlisted address reads as. -/
@[simp] theorem load_reset (a : Word) : State.reset.load a = Memory.unlisted := Memory.read_nil a

/-- Settles O15: the empty list of cells is canonical, the PC and COND are fields of the reset state, and registers and
words read as the two lemmas above say. -/
theorem resetState : Obligations.ResetState :=
  ⟨Memory.wf_reset, rfl, rfl, reg_reset, load_reset⟩

end Sys2Proof.Machine
